-- ==== Sys2Proof/Word.lean ====
section
/-! DEFINITION. The byte and the 32-bit word of steganon CORE (spec/00_scope.md R7, R8). -/

namespace Sys2Proof

/-- A byte: 8 bits, bit 7 the most significant (R8). -/
abbrev Byte := BitVec 8

/-- A register's value or a command word: 32 bits (R21, R90). -/
abbrev Word := BitVec 32

end Sys2Proof
end

