-- ==== Sys2Proof/Syntax.lean ====
section
/-! DEFINITION. The four commands of spec/30_encoding.md R92, one constructor per row of spec/opcode_table.json.
No command has an operand in its word (R91). -/

namespace Sys2Proof

/-- The commands of R92. -/
inductive Instr where
  /-- `EMBED`, `Embed(image, payload)`: spec/41_pixel_codec.md R161. -/
  | embed
  /-- `EXTRACT`, `Extract(image)`: spec/41_pixel_codec.md R165. -/
  | extract
  /-- `ENCRYPT`, `Encrypt(message, password)`: spec/40_cipher_layer.md R136. -/
  | encrypt
  /-- `DECRYPT`, `Decrypt(payload, password)`: spec/40_cipher_layer.md R137. -/
  | decrypt
  deriving DecidableEq, Repr

end Sys2Proof
end

