-- ==== Sys2Proof/WellFormed.lean ====
section
/-! DEFINITION. Format `C` of the command word (spec/30_encoding.md R90) and when a word of that format is a
command (R92, R93). -/

namespace Sys2Proof

/-- Format `C`: `ZERO` in bits 31:4, `OPC` in bits 3:0 (R90). -/
structure FormatC where
  zero : BitVec 28
  opc : BitVec 4
  deriving DecidableEq, Repr

/-- The word of the two fields (R90). -/
def FormatC.word (f : FormatC) : Word := f.zero ++ f.opc

/-- The two fields of a word (R90). -/
def FormatC.ofWord (w : Word) : FormatC := ⟨w.extractLsb' 4 28, w.extractLsb' 0 4⟩

/-- `ZERO` "must be 0" (R90). -/
def FormatC.zeroOk (f : FormatC) : Bool := f.zero == 0#28

/-- `OPC` is one of 1 to 4 (R92); 0 and 5 to 15 are reserved (R93). -/
def FormatC.opcOk (f : FormatC) : Bool := Nat.ble 1 f.opc.toNat && Nat.ble f.opc.toNat 4

/-- The fields are those of a command (R92). -/
def FormatC.wellFormed (f : FormatC) : Bool := f.zeroOk && f.opcOk

/-- The fields of a command, from the `OPC` column of R92. -/
def Instr.fields : Instr → FormatC
  | .embed => ⟨0, 1⟩
  | .extract => ⟨0, 2⟩
  | .encrypt => ⟨0, 3⟩
  | .decrypt => ⟨0, 4⟩

/-- A command is well formed when its fields are. -/
def Instr.wellFormed (i : Instr) : Bool := i.fields.wellFormed

end Sys2Proof
end

