-- ==== Sys2Proof/Decode.lean ====
section
/-! DEFINITION. The decoder, total on every word and every byte string and rejecting by name, and the encoder
after it (spec/30_encoding.md R90 to R94; byte order spec/20_memory.md R61). -/

namespace Sys2Proof

/-- A row of the opcode map of R92. -/
structure OpRow where
  instr : Instr
  pattern : Word
  mask : Word
  deriving DecidableEq, Repr

/-- Why a word is no command (R93). -/
inductive DecodeReject where
  /-- A bit of `ZERO`, 31:4, is not 0, whatever the `OPC`. -/
  | zeroFieldNotZero
  /-- `OPC` is 0 or 5 to 15. -/
  | reservedOpc
  /-- Fewer than four bytes are given. -/
  | truncated
  deriving DecidableEq, Repr

/-- The opcode map of R92: columns match and mask. -/
def opcodeTable : List OpRow :=
  [⟨.embed, 0x00000001, 0xFFFFFFFF⟩, ⟨.extract, 0x00000002, 0xFFFFFFFF⟩,
   ⟨.encrypt, 0x00000003, 0xFFFFFFFF⟩, ⟨.decrypt, 0x00000004, 0xFFFFFFFF⟩]

/-- A word selects the row when `w & mask = match` (R92). -/
def OpRow.selects (r : OpRow) (w : Word) : Bool := w &&& r.mask == r.pattern

/-- Decoding "is: compare the whole word with the four patterns" (R91, R92, R93). -/
def decode (w : Word) : Except DecodeReject Instr :=
  match opcodeTable.find? (·.selects w) with
  | some r => .ok r.instr
  | none => if (FormatC.ofWord w).zeroOk then .error .reservedOpc else .error .zeroFieldNotZero

/-- The word of a command (R92, column word). -/
def encode : Instr → Word
  | .embed => 0x00000001
  | .extract => 0x00000002
  | .encrypt => 0x00000003
  | .decrypt => 0x00000004

/-- A word from four bytes, least significant byte at the lowest address (R61). -/
def wordOfBytes (b0 b1 b2 b3 : Byte) : Word := b3 ++ b2 ++ b1 ++ b0

/-- The four bytes of a word, least significant byte first (R61). -/
def bytesOfWord (w : Word) : List Byte :=
  [w.extractLsb' 0 8, w.extractLsb' 8 8, w.extractLsb' 16 8, w.extractLsb' 24 8]

/-- The decoder on bytes as they lie on a byte-addressed bus (R61): the command and the bytes after its word. -/
def decodeBytes : List Byte → Except DecodeReject (Instr × List Byte)
  | b0 :: b1 :: b2 :: b3 :: rest =>
    match decode (wordOfBytes b0 b1 b2 b3) with
    | .ok i => .ok (i, rest)
    | .error r => .error r
  | _ => .error .truncated

/-- The encoder on bytes (R61). -/
def encodeBytes (i : Instr) : List Byte := bytesOfWord (encode i)

/-- What the decoder reads from a command whose `nbits` bits are `w` and whose bits above are 0. -/
def decodeTableWord (nbits w : Nat) : Option Instr :=
  match decodeBytes (bytesOfWord (BitVec.ofNat 32 (w % 2 ^ nbits))) with
  | .ok (i, _) => some i
  | .error _ => none

end Sys2Proof
end

