-- ==== Sys2Proof/Config.lean ====
section
/-! DEFINITION. What the source fixes (spec/00_scope.md R5), the configuration an implementation chooses (R6), and the
free values: the entropy source's answers, the contents of bytes nobody has written, the cipher primitives. -/

namespace Sys2Proof

/-! ## Constants the source fixes (R5) -/

/-- `CHANNELS`: red, green, blue, alpha (R5). -/
@[simp] def Config.channels : Nat := 4

/-- `SLOTS_PER_PIXEL`: the red, green and blue least-significant bits (R5). -/
@[simp] def Config.slotsPerPixel : Nat := 3

/-- `HEADER_BYTES` (R5). -/
@[simp] def Config.headerBytes : Nat := 8

/-- `HEADER_BITS` (R5). -/
@[simp] def Config.headerBits : Nat := 64

/-- `EMBED_LIMIT`, 10^8: `EMBED` fails at and above it (R5). -/
@[simp] def Config.embedLimit : Nat := 100000000

/-- `EXTRACT_MAX`: `EXTRACT` returns the empty payload above it (R5). -/
@[simp] def Config.extractMax : Nat := 1000000

/-! ## Parameters: the values R6 takes for the reference configuration (log 8) -/

/-- `NONCE_SIZE` in bytes (R6, D15). PRESUMED (log 8). -/
@[simp] abbrev Config.nonceSize : Nat := 12

/-- `TAG_SIZE` in bytes (R6, D15). PRESUMED (log 8). -/
@[simp] abbrev Config.tagSize : Nat := 16

/-- `MAX_PIXELS` (R6, D7). -/
@[simp] def Config.maxPixels : Nat := 4294967295

/-- `PAY_CAP` in bytes (R6, D7). -/
@[simp] def Config.payCap : Nat := 4294967295

/-- `MSG_CAP` in bytes (R6, D7). -/
@[simp] def Config.msgCap : Nat := 4294967295

/-- `PWD_CAP` in bytes (R6, D7). -/
@[simp] def Config.pwdCap : Nat := 4294967295

/-! ## The five byte stores (R35 to R39) -/

/-- The five address spaces of R60. -/
inductive Store where
  /-- `SRC`, the source pixel store (R35). -/
  | src
  /-- `DST`, the destination pixel store (R36). -/
  | dst
  /-- `PAY`, the payload store (R37). -/
  | pay
  /-- `MSG`, the message store (R38). -/
  | msg
  /-- `PWD`, the password store (R39). -/
  | pwd
  deriving DecidableEq, Repr

/-- FREE VALUE, DESIGN CHOICE (log 3): what byte `a` of a store holds in reset period `epoch` while nothing has
written it (R46, R73, R274, U8). Nothing constrains it. -/
opaque Config.unwrittenByte (epoch : Nat) (σ : Store) (a : Nat) : Byte

/-! ## The entropy port (R135) -/

/-- One answer of the entropy source to `RngDraw(n)`: `fail`, or exactly `n` bytes (R135). -/
inductive RngAnswer (n : Nat) where
  | fail
  | bytes (b : Vector Byte n)
  deriving DecidableEq, Repr, Inhabited

/-- FREE VALUE, DESIGN CHOICE (log 5): the entropy source's answer to draw number `draw`, of `n` bytes (R135, U5).
Nothing constrains it, and two draws are unrelated. -/
opaque Config.rngAnswer (n draw : Nat) : RngAnswer n

/-! ## The cipher primitives (R130 to R134; log 7) -/

/-- A key: 32 bytes, `KEY_BITS` = 256 (R5, R109, R131). -/
abbrev Key := Vector Byte 32

/-- FREE VALUE, DESIGN CHOICE (log 7): `HASH256`, from a byte string of any length to 32 bytes (R130). -/
opaque Config.hash256 (pwd : List Byte) : Key

/-- `AEAD_SEAL` and `AEAD_OPEN` together with the three properties of R134 that R134 calls exact, for the given
`NONCE_SIZE` and `TAG_SIZE`. The associated data is always empty and is no argument (R130). -/
structure AeadScheme (nonceSize tagSize : Nat) where
  /-- `AEAD_SEAL(key, nonce, pt)` (R132). -/
  encipher : Key → List Byte → List Byte → List Byte
  /-- `AEAD_OPEN(key, nonce, c)`: `none` is the spec's `fail` (R133). -/
  decipher : Key → List Byte → List Byte → Option (List Byte)
  /-- `SEAL_LEN` (R134). -/
  seal_len : ∀ k n pt, n.length = nonceSize → (encipher k n pt).length = pt.length + tagSize
  /-- `OPEN_LEN` (R134): a plaintext is `TAG_SIZE` shorter than its ciphertext, so a shorter text than a tag
  fails. -/
  open_len : ∀ k n c pt, decipher k n c = some pt → pt.length + tagSize = c.length
  /-- `OPEN_SEAL` (R134). -/
  open_seal : ∀ k n pt, n.length = nonceSize → decipher k n (encipher k n pt) = some pt

/-- A scheme that meets the three properties: the plaintext followed by a tag of zeros. It shows only that the
properties can be met together; the model's cipher is `Config.aead`, of which nothing but the properties is
known. -/
def AeadScheme.zeroTag (nonceSize tagSize : Nat) : AeadScheme nonceSize tagSize where
  encipher _ _ pt := pt ++ List.replicate tagSize 0
  decipher _ _ c := if tagSize ≤ c.length then some (c.take (c.length - tagSize)) else none
  seal_len := by simp
  open_len := by
    intro k n c pt h
    split at h
    · cases h; simp; omega
    · cases h
  open_seal := by simp

/-- FREE VALUE, DESIGN CHOICE (log 7): the authenticated cipher, any scheme with the exact properties of R134. -/
opaque Config.aeadScheme (nonceSize tagSize : Nat) [Inhabited (AeadScheme nonceSize tagSize)] :
  AeadScheme nonceSize tagSize

/-- The authenticated cipher of the reference configuration (R6, R130). -/
def Config.aead : AeadScheme Config.nonceSize Config.tagSize :=
  @Config.aeadScheme Config.nonceSize Config.tagSize ⟨AeadScheme.zeroTag _ _⟩

/-! ## The configuration (R6) -/

/-- `EXTRACT_OVERRUN` (R6, D13): what `EXTRACT` does with a header that names more than the image has. -/
inductive ExtractOverrun where
  /-- `EMPTY`: the empty payload. -/
  | emptyPayload
  /-- `PARTIAL`: "the `(3N - 64) div 8` whole bytes available" (D13; log 10). -/
  | partialPayload
  deriving DecidableEq, Repr

/-- A configuration of the block: every parameter of R6 with its constraint. The model "takes each as an argument": the
meanings, the host's port and the step have a configuration as their first argument, and `Config.reference` is the one
with the values R6 takes. -/
structure Params where
  /-- `HASH256` (R6, R130). -/
  hash256 : List Byte → Key
  /-- `NONCE_SIZE` in bytes. -/
  nonceSize : Nat
  /-- `TAG_SIZE` in bytes. -/
  tagSize : Nat
  /-- `AEAD_SEAL` and `AEAD_OPEN` (R132, R133). -/
  aead : AeadScheme nonceSize tagSize
  /-- `HDR_PARSE`: from 8 bytes to none or an integer (R102). -/
  hdrParse : List Byte → Option Int
  /-- `EXTRACT_OVERRUN`. -/
  extractOverrun : ExtractOverrun
  /-- `MAX_PIXELS`. -/
  maxPixels : Nat
  /-- `PAY_CAP` in bytes. -/
  payCap : Nat
  /-- `MSG_CAP` in bytes. -/
  msgCap : Nat
  /-- `PWD_CAP` in bytes. -/
  pwdCap : Nat
  /-- `MAX_PIXELS <= 2^32 - 1`. -/
  maxPixels_le : maxPixels ≤ 4294967295
  /-- `EXTRACT_MAX <= PAY_CAP`. -/
  extractMax_le_payCap : Config.extractMax ≤ payCap
  /-- `PAY_CAP <= 2^32 - 1`. -/
  payCap_le : payCap ≤ 4294967295
  /-- `MSG_CAP <= 2^32 - 1`. -/
  msgCap_le : msgCap ≤ 4294967295
  /-- `PWD_CAP <= 2^32 - 1`. -/
  pwdCap_le : pwdCap ≤ 4294967295

/-- The size of each store in bytes (R60). -/
def Params.storeSize (c : Params) : Store → Nat
  | .src => 4 * c.maxPixels
  | .dst => 4 * c.maxPixels
  | .pay => c.payCap
  | .msg => c.msgCap
  | .pwd => c.pwdCap

end Sys2Proof
end

