-- ==== Sys2Proof/Machine/State.lean ====
section
/-! DEFINITION. The architectural state (spec/10_state.md), as plain data: the registers of R21, the five stores of
R35 to R39, and the model's own fields for what R41 makes an input of the step. -/

namespace Sys2Proof.Machine

/-- One outcome of the machine's run that is a stop of the model. -/
inductive Fault where
  /-- Raised by a host access (`MemRead`, `MemWrite`, `FILL`, `COPY`) to an index at or above a store's size, where
  R73 defines neither. Safe: the model stops where the hardware would do something unspecified (log 9). No command
  raises it (R73). -/
  | storeIndexOutOfRange (σ : Store) (a : Nat)
  deriving DecidableEq, Repr

/-- What the model gives no meaning (R244). -/
inductive Refusal where
  /-- An instruction that has no meaning yet, by its mnemonic; no arm uses it. Safe. -/
  | notModelled (mnemonic : String)
  /-- Raised by a write to `CMD` while `STATUS.BUSY = 1` (R28, R270). Safe: the spec gives it no defined effect. -/
  | commandWhileBusy
  /-- Raised by any host access but a read of `STATUS` while `STATUS.BUSY = 1` (R271). Safe: as R271 says. -/
  | hostAccessWhileBusy
  /-- Raised by a bus access to the register window that is not an aligned 32-bit word (R63, R273). Safe. -/
  | busAccessForm
  /-- Raised by `EMBED` and `EXTRACT` when `x[WIDTH] * x[HEIGHT] > MAX_PIXELS` (R272). Safe: the spec refuses the
  command as a whole. -/
  | pixelsOverCapacity
  /-- Raised by `EMBED` and `DECRYPT` when `x[PAYLEN] > PAY_CAP` (R272). Safe. -/
  | payloadOverCapacity
  /-- Raised by `ENCRYPT` when `x[MSGLEN] > MSG_CAP` (R272). Safe. -/
  | messageOverCapacity
  /-- Raised by `ENCRYPT` and `DECRYPT` when `x[PWDLEN] > PWD_CAP` (R272). Safe. -/
  | passwordOverCapacity
  /-- Raised by `ENCRYPT` when the result is longer than `PAY_CAP`, by `DECRYPT` when `x[PAYLEN] > MSG_CAP`
  (R272). Safe. -/
  | resultOverCapacity
  deriving DecidableEq, Repr

/-- The outcome of a step of this machine. -/
abbrev Result (σ : Type) := Host.Outcome σ Fault Refusal

/-- The contents of a store: the bytes written since reset, each with its index, indices strictly rising. A byte
that is not listed has not been written and is unspecified (R73, R274; log 4). -/
abbrev Memory := List Host.Cell

/-- What a read returns to the host (log 13). -/
inductive HostDatum where
  /-- The value of `RegRead(n)` (R43). -/
  | reg (v : Word)
  /-- The four bytes of a register read over the bus, lowest address first (R61). -/
  | bus (bytes : List Byte)
  /-- The byte of a store read (R73). -/
  | byte (v : Byte)
  deriving DecidableEq, Repr

/-- The answer an `RNG` line names (R98): `fail`, or bytes. -/
inductive RngLine where
  | fail
  | bytes (b : List Byte)
  deriving DecidableEq, Repr

/-- What the outside world can do to the block between commands (R20, R43, R98, R260). -/
inductive HostAction where
  /-- `WR`: `RegWrite(n, v)`; for `n = 0` it issues the command `v` encodes (R28, R43). -/
  | regWrite (n : Nat) (v : Word)
  /-- `RD`: `RegRead(n)` (R43). -/
  | regRead (n : Nat)
  /-- A bus write of bytes at a byte offset of the register window (R43, R61, R63). -/
  | busWrite (offset : Nat) (data : List Byte)
  /-- A bus read of `width` bytes at a byte offset of the register window (R43, R61, R63). -/
  | busRead (offset width : Nat)
  /-- The host reads one byte of a store (R60). -/
  | storeRead (σ : Store) (a : Nat)
  /-- `FILL`: the host writes the bytes into the store from the offset (R98). -/
  | fill (σ : Store) (offset : Nat) (data : List Byte)
  /-- `COPY target <- source, n`: the host copies the first `n` bytes (R98). -/
  | copy (target source : Store) (n : Nat)
  /-- `RNG`: fixes the answer to the next `RngDraw` (R98; log 6). -/
  | rng (line : RngLine)
  /-- The host's test inside `ENCODE`: write `w` to `CMD` only if `STATUS.ERR = NONE` (R97, R200). -/
  | commandIfNone (w : Word)
  /-- The reset input (R260). -/
  | reset
  deriving DecidableEq, Repr

/-- The state of the block. `CMD` (register 0) holds nothing (R28) and is no field. -/
structure State where
  /-- Register 1, `STATUS` (R29). -/
  status : Word
  /-- Register 2, `WIDTH` (R22). -/
  width : Word
  /-- Register 3, `HEIGHT` (R23). -/
  height : Word
  /-- Register 4, `PAYLEN` (R24). -/
  paylen : Word
  /-- Register 5, `MSGLEN` (R25). -/
  msglen : Word
  /-- Register 6, `PWDLEN` (R26). -/
  pwdlen : Word
  /-- Register 7, `CUR`, the slot cursor (R27). -/
  cur : Word
  /-- Store `SRC` (R35). -/
  src : Memory
  /-- Store `DST` (R36). -/
  dst : Memory
  /-- Store `PAY` (R37). -/
  pay : Memory
  /-- Store `MSG` (R38). -/
  msg : Memory
  /-- Store `PWD` (R39). -/
  pwd : Memory
  /-- MODEL'S OWN, DESIGN CHOICE (log 3): the number of reset events so far, which names the present unspecified
  bytes. -/
  resets : Nat
  /-- MODEL'S OWN, DESIGN CHOICE (log 5): the number of requests made to the entropy port so far. -/
  draws : Nat
  /-- MODEL'S OWN, DESIGN CHOICE (log 6): the answer fixed for the next request to the entropy port, if one is. -/
  rngNext : Option RngLine
  /-- MODEL'S OWN, DESIGN CHOICE (log 13): what the host's last read returned. -/
  hostRead : Option HostDatum
  /-- MODEL'S OWN, DESIGN CHOICE (log 1): the host's outstanding actions, the next one first. -/
  script : List HostAction
  deriving DecidableEq, Repr

/-- The block right after reset: every register 0, idle, no store byte written (R46, R260). -/
def State.reset : State where
  status := 0
  width := 0
  height := 0
  paylen := 0
  msglen := 0
  pwdlen := 0
  cur := 0
  src := []
  dst := []
  pay := []
  msg := []
  pwd := []
  resets := 0
  draws := 0
  rngNext := none
  hostRead := none
  script := []

end Sys2Proof.Machine
end

