-- ==== Sys2Proof/Machine/Flags.lean ====
section
/-! DEFINITION. `STATUS`: its layout, its fields and the result codes (spec/10_state.md R29 to R34,
spec/60_exceptions.md R220). It is the block's only condition code (R32, R42). -/

namespace Sys2Proof.Machine

/-- The result codes of R220. -/
inductive ResultCode where
  | none
  | capacity
  | encryption
  | decryption
  | illegalCmd
  deriving DecidableEq, Repr

/-- The value of `STATUS.ERR` for each code (R29, R220). -/
def errBits : ResultCode → BitVec 3
  | .none => 0
  | .capacity => 1
  | .encryption => 2
  | .decryption => 3
  | .illegalCmd => 4

/-- The word of `STATUS` with the given fields and every reserved bit 0 (R29, R34). -/
def statusWord (busy done : Bool) (err : ResultCode) (sub : Bool) : Word :=
  0#23 ++ BitVec.ofBool sub ++ 0#1 ++ errBits err ++ 0#2 ++ BitVec.ofBool done ++ BitVec.ofBool busy

/-- `STATUS.BUSY`, bit 0 (R30). -/
def State.busy (s : State) : Bool := s.status.getLsbD 0

/-- `STATUS.DONE`, bit 1 (R31). -/
def State.done (s : State) : Bool := s.status.getLsbD 1

/-- `STATUS.ERR`, bits 6:4 (R32). -/
def State.err (s : State) : BitVec 3 := s.status.extractLsb' 4 3

/-- `STATUS.SUB`, bit 8 (R33). -/
def State.sub (s : State) : Bool := s.status.getLsbD 8

/-- The bits of `STATUS` that are not reserved (R29). -/
def statusFields : Word := 0x173

/-- What a read of `STATUS` returns: the reserved bits "read as 0" (R34; log 14). -/
def readStatus (s : State) : Word := s.status &&& statusFields

/-- `STATUS` at the start of a command: `0x001` (R99 step 1; R30 to R33). -/
def startedStatus : Word := statusWord true false .none false

/-- `STATUS` at the end of a command (R99 step 4, R224). -/
def endedStatus (err : ResultCode) (sub : Bool) : Word := statusWord false true err sub

end Sys2Proof.Machine
end

