-- ==== Sys2Proof/Machine/Formats.lean ====
section
/-! DEFINITION. The data formats of spec/30_encoding.md Part B: header, bit order, slot order, capacity, pixel.
Every number is exact (spec/00_scope.md R7). -/

namespace Sys2Proof.Machine

/-- `Hdr(L)`: eight ASCII decimal digits, the most significant first (R101, R110). -/
def hdr (L : Nat) : List Byte :=
  (List.range Config.headerBytes).map fun i => BitVec.ofNat 8 (0x30 + L / 10 ^ (7 - i) % 10)

/-- Byte `v` is an ASCII decimal digit (R110). -/
def isDigit (v : Byte) : Bool := Nat.ble 0x30 v.toNat && Nat.ble v.toNat 0x39

/-- The decimal value of a string of digits, the most significant first: for eight of them the sum
`sum over i = 0..7 of (h[i] - 0x30) * 10^(7-i)` of R102, in Horner's form. -/
def digitsValue (h : List Byte) : Nat := h.foldl (fun v d => 10 * v + (d.toNat - 0x30)) 0

/-- `HDR_PARSE(h)` of the reference configuration: none, or an integer (R102, digits only; log 10). -/
def hdrParse (h : List Byte) : Option Int :=
  if h.all isDigit then some (digitsValue h : Int) else none

/-- The framed bitstream `Frame(P) = Hdr(len P) || P` (R100). -/
def frame (P : List Byte) : List Byte := hdr P.length ++ P

/-- The number of bits of the frame of an `L`-byte payload, `T` of R161 (R100). -/
def frameBits (L : Nat) : Nat := 8 * (Config.headerBytes + L)

/-- `Bit(S, k)`: bit `7 - (k mod 8)` of byte `k div 8`, most significant bit first (R62, R103). -/
def bit (S : List Byte) (k : Nat) : Bool := (S.getD (k / 8) 0).getLsbD (7 - k % 8)

/-- `SlotPixel(k)` (R105). -/
def slotPixel (k : Nat) : Nat := k / Config.slotsPerPixel

/-- `SlotChannel(k)`: 0 red, 1 green, 2 blue (R105). -/
def slotChannel (k : Nat) : Nat := k % Config.slotsPerPixel

/-- The index of channel `c` of pixel `p` in a pixel store (R64, R107). -/
def channelIndex (p c : Nat) : Nat := Config.channels * p + c

/-- `SlotAddr(k)` (R105). -/
def slotAddr (k : Nat) : Nat := channelIndex (slotPixel k) (slotChannel k)

/-- The index of the pixel in column `xx` and row `yy` of an image `width` pixels wide (R64). -/
def pixelIndex (width xx yy : Nat) : Nat := yy * width + xx

/-- The row of slot `k` (R105). -/
def slotRow (width k : Nat) : Nat := slotPixel k / width

/-- The column of slot `k` (R105). -/
def slotColumn (width k : Nat) : Nat := slotPixel k % width

/-- `Slots(N)` (R106). -/
def slots (N : Nat) : Nat := Config.slotsPerPixel * N

/-- `Fits(L, N)` (R106). -/
def fits (L N : Nat) : Bool := Nat.blt L Config.embedLimit && Nat.ble (frameBits L) (slots N)

/-- `PixelCap(N)`: "may be negative: then nothing fits" (R106). -/
def pixelCap (N : Nat) : Int := (slots N / 8 : Nat) - 8

/-- `EmbedCap(N)` (R106). -/
def embedCap (N : Nat) : Int := min (pixelCap N) (Config.embedLimit - 1)

/-- `RoundTrip(N)` (R106). -/
def roundTripCap (N : Nat) : Int := min (pixelCap N) Config.extractMax

/-- The least-significant-bit write `(old & 0xFE) | b` (R66). -/
def setLsb (old : Byte) (b : Bool) : Byte := (old &&& 0xFE) ||| (if b then 1 else 0)

/-- Eight bits packed most significant first: `sum over t = 0..7 of b(t) * 2^(7 - t)` (R104). -/
def packByte (b : Nat → Bool) : Byte :=
  BitVec.ofNat 8 ((List.range 8).map fun t => (b t).toNat * 2 ^ (7 - t)).sum

/-- The length of the record of an `M`-byte message (R108, R138). -/
def recordLen (c : Params) (M : Nat) : Nat := c.nonceSize + M + c.tagSize

end Sys2Proof.Machine
end

