-- ==== Sys2Proof/Machine/Ops.lean ====
section
/-! DEFINITION. The named operations over registers, stores, the entropy port and `STATUS`: the primitives of
spec/00_scope.md R10, and the start and the two ends of a command (spec/30_encoding.md R99,
spec/60_exceptions.md R224). -/

namespace Sys2Proof.Machine

/-! ## One store as data -/

/-- The byte listed for index `a`, if it has been written since reset. -/
def Memory.peek : Memory → Nat → Option Byte
  | [], _ => none
  | (x, v) :: m, a => if a = x then some v else Memory.peek m a

/-- Lists byte `v` for index `a`, keeping the indices strictly rising. -/
def Memory.poke : Memory → Nat → Byte → Memory
  | [], a, v => [(a, v)]
  | (x, w) :: m, a, v =>
    if a < x then (a, v) :: (x, w) :: m
    else if a = x then (a, v) :: m
    else (x, w) :: Memory.poke m a v

/-- The canonical form: indices strictly rising (log 4). -/
abbrev Memory.wf (m : Memory) : Prop := m.Pairwise fun c d => c.1 < d.1

/-- Every listed index lies below the store's size (R60, R73). -/
abbrev Memory.within (m : Memory) (size : Nat) : Prop := ∀ c ∈ m, c.1 < size

/-! ## The registers a command writes -/

/-- Writes `STATUS`. -/
def State.setStatus (s : State) (v : Word) : State := { s with status := v }

/-- `x[CUR] <- v` (R10, R27). -/
def State.setCur (s : State) (v : Nat) : State := { s with cur := BitVec.ofNat 32 v }

/-- `x[PAYLEN] <- v` (R24). -/
def State.setPaylen (s : State) (v : Nat) : State := { s with paylen := BitVec.ofNat 32 v }

/-- `x[MSGLEN] <- v` (R25). -/
def State.setMsglen (s : State) (v : Nat) : State := { s with msglen := BitVec.ofNat 32 v }

/-! ## The stores -/

/-- The contents of a store. -/
def State.mem (s : State) : Store → Memory
  | .src => s.src
  | .dst => s.dst
  | .pay => s.pay
  | .msg => s.msg
  | .pwd => s.pwd

/-- Replaces the contents of a store. -/
def State.setMem (s : State) (σ : Store) (m : Memory) : State :=
  match σ with
  | .src => { s with src := m }
  | .dst => { s with dst := m }
  | .pay => { s with pay := m }
  | .msg => { s with msg := m }
  | .pwd => { s with pwd := m }

/-- `MemRead(STORE, a, 1)` (R73): the byte written last, or the unspecified byte of this reset period (log 3). -/
def memRead (s : State) (σ : Store) (a : Nat) : Byte :=
  ((s.mem σ).peek a).getD (Config.unwrittenByte s.resets σ a)

/-- `MemWrite(STORE, a, 1, v)` (R73). -/
def memWrite (s : State) (σ : Store) (a : Nat) (v : Byte) : State :=
  s.setMem σ ((s.mem σ).poke a v)

/-- `STORE[a .. a+n)` (R10). -/
def readBytes (s : State) (σ : Store) (a n : Nat) : List Byte :=
  (List.range n).map fun i => memRead s σ (a + i)

/-- `STORE[a .. a+len(S)) <- S` (R10). -/
def writeBytes (s : State) (σ : Store) (a : Nat) : List Byte → State
  | [] => s
  | v :: vs => writeBytes (memWrite s σ a v) σ (a + 1) vs

/-- `SlotBit(k)`: the least-significant bit of a slot of the source image (R104). -/
def slotBit (s : State) (k : Nat) : Bool := (memRead s .src (slotAddr k)).getLsbD 0

/-- `GatherByte(k0)` (R104). -/
def gatherByte (s : State) (k0 : Nat) : Byte := packByte fun t => slotBit s (k0 + t)

/-! ## The entropy port -/

/-- The answer to `RngDraw(n)` that an `RNG` line fixes: none when its bytes are not `n` many, for that is no answer
of the port (R135; log 6). -/
def RngLine.answer (n : Nat) : RngLine → Option (RngAnswer n)
  | .fail => some .fail
  | .bytes b => if h : b.length = n then some (.bytes ⟨b.toArray, h⟩) else none

/-- The `RNG` line that fixes an answer (R98). -/
def RngLine.ofAnswer {n : Nat} : RngAnswer n → RngLine
  | .fail => .fail
  | .bytes b => .bytes b.toList

/-- The answer to the next request: the one an `RNG` line fixed, else a free value (R98, R135; log 5, log 6). -/
def rngNextAnswer (c : Params) (s : State) : RngAnswer c.nonceSize :=
  (s.rngNext.bind (RngLine.answer c.nonceSize)).getD (Config.rngAnswer c.nonceSize s.draws)

/-- What a request leaves: the fixed answer is used up and the next request is a new one (R67, R135). -/
def rngConsume (s : State) : State := { s with rngNext := none, draws := s.draws + 1 }

/-! ## The start and the ends of a command -/

/-- R99 step 1: `STATUS <- 0x001`. -/
def startCommand (s : State) : State := s.setStatus startedStatus

/-- R99 step 4: the result code and the sub-cause, `DONE <- 1`, `BUSY <- 0`. -/
def completeCommand (err : ResultCode) (sub : Bool) (s : State) : State := s.setStatus (endedStatus err sub)

/-- `finish` (R10): the command ends with `NONE`. -/
def finish (s : State) : State := completeCommand .none false s

/-- `raise Kind(sub)` (R10, R224), the one way a command ends with an error: `STATUS` records it, nothing else
changes, and the block is idle. There is no handler and no return instruction (R230): the next accepted write to
`CMD` clears the code. -/
def raise (kind : ResultCode) (sub : Bool) (s : State) : State := completeCommand kind sub s

/-- A command whose launch premise fails is refused as a whole (R272); else it starts, and its pseudocode runs to
its end (R99). -/
def launch (premise : Option Refusal) (pseudocode : State → State) (s : State) : Result State :=
  match premise with
  | some r => .refused r
  | none => .next (pseudocode (startCommand s))

/-- `IllegalCommand(w)`: an illegal word in `CMD` raises `ILLEGAL_CMD(0)` and does nothing else (R93, R225). -/
def illegalCommand (s : State) : State := raise .illegalCmd false (startCommand s)

end Sys2Proof.Machine
end

