-- ==== Sys2Proof/Machine/Operands.lean ====
section
/-! DEFINITION. The implicit operands of the commands (spec/30_encoding.md R91, spec/20_memory.md R75) and the
launch premises on them (spec/70_reset_and_hazards.md R272). `c` is the configuration (R6). -/

namespace Sys2Proof.Machine

variable (c : Params)

/-- `N = x[WIDTH] * x[HEIGHT]`, an exact product (R22). -/
def pixelCount (s : State) : Nat := s.width.toNat * s.height.toNat

/-- `PAY[0 .. x[PAYLEN])` (R24). -/
def payload (s : State) : List Byte := readBytes s .pay 0 s.paylen.toNat

/-- `MSG[0 .. x[MSGLEN])` (R25). -/
def message (s : State) : List Byte := readBytes s .msg 0 s.msglen.toNat

/-- `PWD[0 .. x[PWDLEN])` (R26). -/
def password (s : State) : List Byte := readBytes s .pwd 0 s.pwdlen.toNat

/-- `x[PWDLEN] = 0`: the empty password, the cipher is bypassed (R26). -/
def emptyPassword (s : State) : Bool := s.pwdlen == 0

/-- `KeyOf(pwd) = HASH256(pwd)` (R131), computed anew in every command (R142). -/
def keyOf (pwd : List Byte) : Key := c.hash256 pwd

/-- The length of what `ENCRYPT` writes to `PAY` (R136, R138). -/
def encryptedLen (s : State) : Nat :=
  if emptyPassword s then s.msglen.toNat else recordLen c s.msglen.toNat

/-- The launch premises of `EMBED` (R272). -/
def embedPremise (s : State) : Option Refusal :=
  if pixelCount s > c.maxPixels then some .pixelsOverCapacity
  else if s.paylen.toNat > c.payCap then some .payloadOverCapacity
  else none

/-- The launch premise of `EXTRACT` (R272). -/
def extractPremise (s : State) : Option Refusal :=
  if pixelCount s > c.maxPixels then some .pixelsOverCapacity else none

/-- The launch premises of `ENCRYPT` (R272). -/
def encryptPremise (s : State) : Option Refusal :=
  if s.msglen.toNat > c.msgCap then some .messageOverCapacity
  else if s.pwdlen.toNat > c.pwdCap then some .passwordOverCapacity
  else if encryptedLen c s > c.payCap then some .resultOverCapacity
  else none

/-- The launch premises of `DECRYPT` (R272). -/
def decryptPremise (s : State) : Option Refusal :=
  if s.paylen.toNat > c.payCap then some .payloadOverCapacity
  else if s.pwdlen.toNat > c.pwdCap then some .passwordOverCapacity
  else if s.paylen.toNat > c.msgCap then some .resultOverCapacity
  else none

end Sys2Proof.Machine
end

