-- ==== Sys2Proof/Machine/Reference.lean ====
section
/-! DEFINITION. The reference configuration (spec/00_scope.md R6, column value taken): the one the machine of
`Sys2Proof.core` is built with. -/

namespace Sys2Proof

/-- The reference configuration of R6 (log 8, log 10). Hash and cipher are free values (log 7). -/
abbrev Config.reference : Params where
  hash256 := Config.hash256
  nonceSize := Config.nonceSize
  tagSize := Config.tagSize
  aead := Config.aead
  hdrParse := Machine.hdrParse
  extractOverrun := .emptyPayload
  maxPixels := Config.maxPixels
  payCap := Config.payCap
  msgCap := Config.msgCap
  pwdCap := Config.pwdCap
  maxPixels_le := by decide
  extractMax_le_payCap := by decide
  payCap_le := by decide
  msgCap_le := by decide
  pwdCap_le := by decide

end Sys2Proof
end

