-- ==== Sys2Proof/Machine/CipherLayer.lean ====
section
/-! DEFINITION. The Cipher Layer: `ENCRYPT` and `DECRYPT` (spec/40_cipher_layer.md R136, R137), in every configuration
`c` of R6 and in the reference configuration. -/

namespace Sys2Proof.Machine

variable (c : Params)

/-- The end of a successful `ENCRYPT`: the bytes to `PAY` and their number to `PAYLEN` (R136). -/
def deliverPayload (bytes : List Byte) (s : State) : State :=
  finish ((writeBytes s .pay 0 bytes).setPaylen bytes.length)

/-- The end of a successful `DECRYPT`: the bytes to `MSG` and their number to `MSGLEN` (R137). -/
def deliverMessage (bytes : List Byte) (s : State) : State :=
  finish ((writeBytes s .msg 0 bytes).setMsglen bytes.length)

/-- The encrypted record `NONCE || CIPHERTEXT_WITH_TAG` (R108, R136). -/
def sealRecord (pwd nonce msg : List Byte) : List Byte :=
  nonce ++ c.aead.encipher (keyOf c pwd) nonce msg

/-- `AEAD_OPEN` on a record: its first `NONCE_SIZE` bytes are the nonce (R137, R141). -/
def openRecord (pwd record : List Byte) : Option (List Byte) :=
  c.aead.decipher (keyOf c pwd) (record.take c.nonceSize) (record.drop c.nonceSize)

/-- The pseudocode of `ENCRYPT` (R136). The request to the entropy port is made only with a password, and stays
made when it fails (R229). -/
def encryptPseudocode (s : State) : State :=
  if emptyPassword s then deliverPayload (message s) s
  else
    match rngNextAnswer c s with
    | .fail => raise .encryption false (rngConsume s)
    | .bytes nonce => deliverPayload (sealRecord c (password s) nonce.toList (message s)) (rngConsume s)

/-- `ENCRYPT` (R136). -/
def encryptWith (s : State) : Result State := launch (encryptPremise c s) (encryptPseudocode c) s

/-- `ENCRYPT` in the reference configuration. -/
def execEncrypt (s : State) : Result State := encryptWith Config.reference s

/-- The pseudocode of `DECRYPT` (R137): the bypass, then "too short", then authentication (R228). -/
def decryptPseudocode (s : State) : State :=
  if emptyPassword s then deliverMessage (payload s) s
  else if s.paylen.toNat < c.nonceSize then raise .decryption true s
  else
    match openRecord c (password s) (payload s) with
    | none => raise .decryption false s
    | some plaintext => deliverMessage plaintext s

/-- `DECRYPT` (R137). -/
def decryptWith (s : State) : Result State := launch (decryptPremise c s) (decryptPseudocode c) s

/-- `DECRYPT` in the reference configuration. -/
def execDecrypt (s : State) : Result State := decryptWith Config.reference s

end Sys2Proof.Machine
end

