-- ==== Sys2Proof/Machine/PixelCodec.lean ====
section
/-! DEFINITION. The Pixel Codec: `EMBED` and `EXTRACT` (spec/41_pixel_codec.md R161, R165), in every configuration `c`
of R6 and in the reference configuration. -/

namespace Sys2Proof.Machine

/-- The full pixel-for-pixel copy, step 4 of R161: `DST[i] <- SRC[i]` for `i` in `0 .. 4N - 1`. -/
def copyImage (s : State) : State :=
  writeBytes s .dst 0 (readBytes s .src 0 (Config.channels * pixelCount s))

/-- One slot step of the scatter: slot `x[CUR]` receives `Bit(B, x[CUR])` and `CUR` advances by 1 (R161, R162). -/
def embedSlot (B : List Byte) (s : State) : State :=
  let k := s.cur.toNat
  let a := slotAddr k
  (memWrite s .dst a (setLsb (memRead s .src a) (bit B k))).setCur (k + 1)

/-- `n` slot steps (R162): the loop `while x[CUR] < T` of R161, started at `CUR = 0`, is `T` of them. -/
def embedSlots (B : List Byte) : Nat → State → State
  | 0, s => s
  | n + 1, s => embedSlots B n (embedSlot B s)

/-- The pseudocode of `EMBED` (R161). -/
def embedPseudocode (s : State) : State :=
  let N := pixelCount s
  let L := s.paylen.toNat
  let T := frameBits L
  let s := s.setCur 0
  if L ≥ Config.embedLimit then raise .capacity false s
  else if T > slots N then raise .capacity false s
  else finish (embedSlots (frame (payload s)) T (copyImage s))

/-- `EMBED` (R161). -/
def embedWith (c : Params) (s : State) : Result State := launch (embedPremise c s) embedPseudocode s

/-- `EMBED` in the reference configuration. -/
def execEmbed (s : State) : Result State := embedWith Config.reference s

/-- Step 1 of R165: the eight header bytes gathered from slots 0 to 63. -/
def gatherHeader (s : State) : List Byte :=
  (List.range Config.headerBytes).map fun i => gatherByte s (8 * i)

/-- Step 3 of R165: the `m` payload bytes gathered from slot 64 on. -/
def gatherPayload (s : State) (m : Nat) : List Byte :=
  (List.range m).map fun j => gatherByte s (Config.headerBits + 8 * j)

/-- The empty payload of the sentinel policy (R165, R166): not an error. -/
def extractNothing (s : State) : State := finish (s.setPaylen 0)

/-- Step 3 of R165 for a plausible header of value `m`. -/
def extractPayload (m : Nat) (s : State) : State :=
  let s := writeBytes s .pay 0 (gatherPayload s m)
  finish ((s.setCur (Config.headerBits + 8 * m)).setPaylen m)

/-- A header that names more than the image has: the empty payload, or the whole bytes available, by
`EXTRACT_OVERRUN` (R6, R165, D13; log 10). -/
def extractOverrun (c : Params) (s : State) : State :=
  match c.extractOverrun with
  | .emptyPayload => extractNothing s
  | .partialPayload => extractPayload ((slots (pixelCount s) - Config.headerBits) / 8) s

/-- The pseudocode of `EXTRACT` (R165). -/
def extractPseudocode (c : Params) (s : State) : State :=
  let N := pixelCount s
  let s := s.setCur 0
  if slots N < Config.headerBits then extractNothing s
  else
    let h := gatherHeader s
    let s := s.setCur Config.headerBits
    match c.hdrParse h with
    | none => extractNothing s
    | some m =>
      if m ≤ 0 ∨ m > Config.extractMax then extractNothing s
      else if Config.headerBits + 8 * m > slots N then extractOverrun c s
      else extractPayload m.toNat s

/-- `EXTRACT` (R165). -/
def extractWith (c : Params) (s : State) : Result State := launch (extractPremise c s) (extractPseudocode c) s

/-- `EXTRACT` in the reference configuration. -/
def execExtract (s : State) : Result State := extractWith Config.reference s

end Sys2Proof.Machine
end

