-- ==== Sys2Proof/Machine/Dispatch.lean ====
section
/-! DEFINITION. One arm per command: the meaning each command word selects (spec/30_encoding.md R92), in the reference
configuration (spec/00_scope.md R6). -/

namespace Sys2Proof.Machine

def exec (i : Instr) (s : State) : Host.Outcome State Fault Refusal :=
  match i with
  | .embed => Sys2Proof.Machine.execEmbed s
  | .extract => Sys2Proof.Machine.execExtract s
  | .encrypt => Sys2Proof.Machine.execEncrypt s
  | .decrypt => Sys2Proof.Machine.execDecrypt s

end Sys2Proof.Machine
end

