-- ==== Sys2Proof/Machine/HostPort.lean ====
section
/-! DEFINITION. What the host does to the block: registers by number and over the bus, command issue, store accesses,
the `RNG` line and reset (spec/10_state.md R28, R43, R44; spec/20_memory.md R60 to R63;
spec/30_encoding.md R98, R99; spec/70_reset_and_hazards.md R260, R270 to R273). What
depends on the configuration takes it, `c`, and the meaning of the commands, `run`, as arguments. -/

namespace Sys2Proof.Machine

/-- The value of register `n` (R43): `CMD` and the reserved numbers 8 and above read 0 (R28, R44), `STATUS` reads
with its reserved bits 0 (R34). -/
def regValue (s : State) (n : Nat) : Word :=
  match n with
  | 1 => readStatus s
  | 2 => s.width
  | 3 => s.height
  | 4 => s.paylen
  | 5 => s.msglen
  | 6 => s.pwdlen
  | 7 => s.cur
  | _ => 0

/-- A write of `v` to operand register `n`, 2 to 6; a write to a read-only or a reserved register is ignored (R43,
R44). -/
def setReg (s : State) (n : Nat) (v : Word) : State :=
  match n with
  | 2 => { s with width := v }
  | 3 => { s with height := v }
  | 4 => { s with paylen := v }
  | 5 => { s with msglen := v }
  | 6 => { s with pwdlen := v }
  | _ => s

variable (c : Params) (run : Instr → State → Result State)

/-- The command that word `w`, written to `CMD` of an idle block, starts (R99): the decoded command, or
`IllegalCommand` when no row matches (R93). -/
def issue (w : Word) (s : State) : Result State :=
  match decode w with
  | .ok i => run i s
  | .error _ => .next (illegalCommand s)

/-- `RegWrite(n, v)` (R43): refused while a command runs (R270, R271); a command issue for `n = 0` (R28). -/
def regWrite (n : Nat) (v : Word) (s : State) : Result State :=
  if s.busy then .refused (if n = 0 then .commandWhileBusy else .hostAccessWhileBusy)
  else if n = 0 then issue run v s
  else .next (setReg s n v)

/-- `RegRead(n)` as the host receives it by `how`: allowed while a command runs for `STATUS` alone (R43, R271). -/
def regRead (n : Nat) (how : Word → HostDatum) (s : State) : Result State :=
  if s.busy && n != 1 then .refused .hostAccessWhileBusy
  else .next { s with hostRead := some (how (regValue s n)) }

/-- A bus access to the register window is the aligned 32-bit word at byte offset `4 * n` (R43, R61). -/
def busAligned (offset width : Nat) : Bool := width == 4 && offset % 4 == 0

/-- A bus write (R43, R61): a `RegWrite` of the little-endian word, or refused (R63, R273). -/
def busWrite (offset : Nat) (data : List Byte) (s : State) : Result State :=
  if busAligned offset data.length then
    regWrite run (offset / 4) (wordOfBytes (data.getD 0 0) (data.getD 1 0) (data.getD 2 0) (data.getD 3 0)) s
  else .refused .busAccessForm

/-- A bus read (R43, R61): a `RegRead`, delivered least significant byte first, or refused (R63, R273). -/
def busRead (offset width : Nat) (s : State) : Result State :=
  if busAligned offset width then regRead (offset / 4) (fun v => .bus (bytesOfWord v)) s
  else .refused .busAccessForm

/-- A host access to stores: refused while a command runs (R271); a fault when it reaches index `last` at or above
the store's size (R73; DESIGN CHOICE, log 9). -/
def storeAccess (reach : List (Store × Nat)) (access : State → State) (s : State) : Result State :=
  if s.busy then .refused .hostAccessWhileBusy
  else
    match reach.find? fun p => c.storeSize p.1 < p.2 with
    | some p => .fault (.storeIndexOutOfRange p.1 (p.2 - 1))
    | none => .next (access s)

/-- The host reads byte `a` of a store (R60, R73). -/
def storeRead (σ : Store) (a : Nat) (s : State) : Result State :=
  storeAccess c [(σ, a + 1)] (fun s => { s with hostRead := some (.byte (memRead s σ a)) }) s

/-- `FILL` (R98): the bytes at indices `offset` to `offset + len - 1`. No byte, no access. -/
def fill (σ : Store) (offset : Nat) (data : List Byte) (s : State) : Result State :=
  storeAccess c (if data.length = 0 then [] else [(σ, offset + data.length)])
    (fun s => writeBytes s σ offset data) s

/-- `COPY` (R98): the first `n` bytes of `source` into `target`. -/
def copy (target source : Store) (n : Nat) (s : State) : Result State :=
  storeAccess c [(source, n), (target, n)] (fun s => writeBytes s target 0 (readBytes s source 0 n)) s

/-- The host's step inside `ENCODE` (R97, R200): issue `w` only if the last command ended with `NONE`. -/
def commandIfNone (w : Word) (s : State) : Result State :=
  if s.busy then .refused .commandWhileBusy
  else if s.err = errBits .none then regWrite run 0 w s
  else .next s

/-- The reset event (R260): every register takes its reset value and every byte of every store is unspecified, from
any state; it abandons a command (R261). What stands outside the block, the entropy source and the host, is
untouched. -/
def resetEvent (s : State) : State :=
  { s with
    status := State.reset.status
    width := State.reset.width
    height := State.reset.height
    paylen := State.reset.paylen
    msglen := State.reset.msglen
    pwdlen := State.reset.pwdlen
    cur := State.reset.cur
    src := State.reset.src
    dst := State.reset.dst
    pay := State.reset.pay
    msg := State.reset.msg
    pwd := State.reset.pwd
    resets := s.resets + 1 }

/-- One host action on a block of configuration `c` whose commands are `run` (R43, R98, R260). -/
def hostActWith (a : HostAction) (s : State) : Result State :=
  match a with
  | .regWrite n v => regWrite run n v s
  | .regRead n => regRead n .reg s
  | .busWrite offset data => busWrite run offset data s
  | .busRead offset width => busRead offset width s
  | .storeRead σ a => storeRead c σ a s
  | .fill σ offset data => fill c σ offset data s
  | .copy target source n => copy c target source n s
  | .rng line => .next { s with rngNext := some line }
  | .commandIfNone w => commandIfNone run w s
  | .reset => .next (resetEvent s)

/-- The next thing that happens: the host's first outstanding action; with none, the idle block "does nothing until
the host writes `CMD`" (R260). -/
def nextActionWith (s : State) : Result State :=
  match s.script with
  | [] => .next s
  | a :: rest => hostActWith c run a { s with script := rest }

/-- One host action on the block of the reference configuration. -/
def hostAct (a : HostAction) (s : State) : Result State := hostActWith Config.reference exec a s

/-- The next thing that happens to the block of the reference configuration. -/
def nextAction (s : State) : Result State := nextActionWith Config.reference exec s

/-- The script line `CMD <mnemonic>` (R96). -/
def cmd (i : Instr) : HostAction := .regWrite 0 (encode i)

end Sys2Proof.Machine
end

