-- ==== Sys2Proof/Machine/Step.lean ====
section
/-! DEFINITION. One step: the host's next action (spec/10_state.md R20; log 1). A command is one step
(spec/30_encoding.md R99). -/

namespace Sys2Proof.Machine

/-- One step of the machine. -/
def step (s : State) : Host.Outcome State Fault Refusal := nextAction s

/-- `s` with the host about to write to `CMD` the word whose low `nbits` bits are those of `w` and whose bits above
are 0: the block fetches no instruction from memory (R74), a command comes by that write alone (R28; log 1). -/
def State.withFetchWord (s : State) (nbits w : Nat) : State :=
  { s with script := .regWrite 0 (BitVec.ofNat 32 (w % 2 ^ nbits)) :: s.script }

end Sys2Proof.Machine
end

