-- ==== Sys2Proof/Machine/Configured.lean ====
section
/-! DEFINITION. The commands and the step of a block of any configuration (spec/00_scope.md R6: "A model takes each as an
argument"). `exec` and `step` are these at `Config.reference`. -/

namespace Sys2Proof.Machine

/-- The meaning of a command in configuration `c` (R92). -/
def execWith (c : Params) (i : Instr) (s : State) : Result State :=
  match i with
  | .embed => embedWith c s
  | .extract => extractWith c s
  | .encrypt => encryptWith c s
  | .decrypt => decryptWith c s

/-- One step of the block of configuration `c` (R41). -/
def stepWith (c : Params) (s : State) : Result State := nextActionWith c (execWith c) s

end Sys2Proof.Machine
end

