-- ==== Sys2Proof/Machine/Pipelines.lean ====
section
/-! DEFINITION. The two pseudo-instructions, host sequences of commands (spec/30_encoding.md R97,
spec/42_pipelines.md R200, R201). -/

namespace Sys2Proof.Machine

/-- Host actions carried out in order, up to the first stop (R98). -/
def runActions : List HostAction → State → Result State
  | [], s => .next s
  | a :: rest, s =>
    match hostAct a s with
    | .next s' => runActions rest s'
    | .fault r => .fault r
    | .refused r => .refused r

/-- `ENCODE` (R200): `CMD ENCRYPT`, then, only if that ended with `NONE`, `CMD EMBED`. -/
def encodeSequence : List HostAction := [cmd .encrypt, .commandIfNone (encode .embed)]

/-- `DECODE` (R201): `CMD EXTRACT`, then `CMD DECRYPT`. -/
def decodeSequence : List HostAction := [cmd .extract, cmd .decrypt]

/-- What the host does between `EMBED` and an `EXTRACT` of its result (R264): `COPY SRC <- DST, 4N`. -/
def reloadImage (N : Nat) : HostAction := .copy .src .dst (Config.channels * N)

end Sys2Proof.Machine
end

