-- ==== Sys2Proof/Machine/SlotSteps.lean ====
section
/-! DEFINITION. `EXTRACT` one slot at a time (spec/41_pixel_codec.md R167). The one-step command of R165 is the
meaning; this is the decomposition R167 gives beside it. `EMBED`'s slot step (R162) is `embedSlot`. -/

namespace Sys2Proof.Machine

/-- The transient values of a running `EXTRACT` (R40, R167): the 8-bit accumulator and the header bytes emitted so
far. They are no state of the block. -/
structure Gather where
  acc : Byte
  header : List Byte
  deriving DecidableEq, Repr

/-- The accumulator shifted by one, most significant bit first, with the slot's bit (R167). -/
def shiftIn (acc : Byte) (b : Bool) : Byte := (acc <<< 1) ||| (if b then 1 else 0)

/-- One gather step (R167): read slot `CUR`, shift its bit in, advance `CUR` by 1; every eighth step emits the
accumulator, to `h[CUR div 8 - 1]` while `CUR <= 64` and to `PAY[(CUR - 64) div 8 - 1]` after. -/
def gatherSlot (g : Gather) (s : State) : Gather × State :=
  let k := s.cur.toNat + 1
  let acc := shiftIn g.acc (slotBit s s.cur.toNat)
  let s := s.setCur k
  if k % 8 ≠ 0 then (⟨acc, g.header⟩, s)
  else if k ≤ Config.headerBits then (⟨0, g.header ++ [acc]⟩, s)
  else (⟨0, g.header⟩, memWrite s .pay ((k - Config.headerBits) / 8 - 1) acc)

/-- `n` gather steps. -/
def gatherSlots : Nat → Gather → State → Gather × State
  | 0, g, s => (g, s)
  | n + 1, g, s => gatherSlots n (gatherSlot g s).1 (gatherSlot g s).2

/-- The payload of `m` bytes gathered slot by slot after the header (R167), and the end of the command. -/
def gatherBytes (m : Nat) (g : Gather) (s : State) : State := finish ((gatherSlots (8 * m) g s).2.setPaylen m)

/-- `EXTRACT` by slot steps (R167): the tests of R165 are made at `CUR = 0` and at `CUR = 64`. -/
def extractBySlots (c : Params) (s : State) : State :=
  let N := pixelCount s
  let s := s.setCur 0
  if slots N < Config.headerBits then extractNothing s
  else
    let (g, s) := gatherSlots Config.headerBits ⟨0, []⟩ s
    match c.hdrParse g.header with
    | none => extractNothing s
    | some m =>
      if m ≤ 0 ∨ m > Config.extractMax then extractNothing s
      else if Config.headerBits + 8 * m > slots N then
        match c.extractOverrun with
        | .emptyPayload => extractNothing s
        | .partialPayload => gatherBytes ((slots N - Config.headerBits) / 8) g s
      else gatherBytes m.toNat g s

end Sys2Proof.Machine
end

