-- ==== Sys2Proof/Safety.lean ====
section
/-! DEFINITION. What statements about runs speak of: the legal values of `STATUS`, the invariant of the machine, what
a command leaves alone. -/

namespace Sys2Proof.Machine

/-- The values a host can read from `STATUS` of an idle block (spec/10_state.md R29): every one but `0x001`. -/
def idleStatusValues : List Word := [0x000, 0x002, 0x012, 0x022, 0x032, 0x132, 0x042]

/-- `STATUS` holds one of them. -/
abbrev State.statusLegal (s : State) : Prop := s.status ∈ idleStatusValues

/-- The largest value of `CUR`: `8 * (8 + 99,999,999)` (R27). -/
def maxCur : Nat := 800000056

/-- Every store is in canonical form and lists nothing outside itself (R60, R73). -/
def State.storesOk (c : Params) (s : State) : Prop :=
  ∀ σ, (s.mem σ).wf ∧ (s.mem σ).within (c.storeSize σ)

/-- The invariant of a block of configuration `c`: a legal idle `STATUS`, `CUR` within its range, every store in
form. -/
def State.InvWith (c : Params) (s : State) : Prop := s.statusLegal ∧ s.cur.toNat ≤ maxCur ∧ s.storesOk c

/-- The invariant of the block of the reference configuration. -/
abbrev State.Inv (s : State) : Prop := s.InvWith Config.reference

/-- The block is idle: `STATUS.BUSY = 0` (R30). -/
abbrev State.idle (s : State) : Prop := s.busy = false

/-- Every byte of a store reads the same before and after. -/
def SameBytes (σ : Store) (s t : State) : Prop := ∀ a, memRead t σ a = memRead s σ a

/-- Every byte of a store outside the indices `0 .. n - 1` reads the same before and after. -/
def SameBytesFrom (n : Nat) (σ : Store) (s t : State) : Prop := ∀ a, n ≤ a → memRead t σ a = memRead s σ a

/-- The operand registers no command writes keep their values: `WIDTH`, `HEIGHT`, `PWDLEN` (R21). -/
def SameSetup (s t : State) : Prop := t.width = s.width ∧ t.height = s.height ∧ t.pwdlen = s.pwdlen

/-- The model's own fields keep their values: reset period, host side, script. -/
def SameOutside (s t : State) : Prop :=
  t.resets = s.resets ∧ t.hostRead = s.hostRead ∧ t.script = s.script

/-- The entropy port has not been used. -/
def SameEntropy (s t : State) : Prop := t.draws = s.draws ∧ t.rngNext = s.rngNext

/-! ## The idealised properties of the cipher (spec/40_cipher_layer.md R134)

R134 names five properties. The three it calls exact come with `Config.aead`. These two it calls idealisations: no
statement of this model assumes them (log 7), and `Sys2Proof/Laws/Cipher.lean` shows that neither can hold. -/

/-- `AUTH` (R134): `AEAD_OPEN` fails on every text that is not a sealing under its own key and nonce. -/
def Auth : Prop :=
  ∀ (k : Key) (n c : List Byte), n.length = Config.nonceSize →
    ((∀ pt, c ≠ Config.aead.encipher k n pt) → Config.aead.decipher k n c = none) ∧
    (∀ (k' : Key) (n' pt : List Byte), n'.length = Config.nonceSize → (k' ≠ k ∨ n' ≠ n) →
      c = Config.aead.encipher k n pt → Config.aead.decipher k' n' c = none)

/-- `HASH_INJ` (R134): different passwords have different keys. -/
def HashInj : Prop := ∀ p q : List Byte, p ≠ q → Config.hash256 p ≠ Config.hash256 q

end Sys2Proof.Machine
end

