-- ==== Sys2Proof/Certificates/Slice0/Obligations.lean ====
section
/-! DEFINITION. The statements for the provers, from the numbered rules of spec/. -/

open Sys2Proof Sys2Proof.Machine

/-! ## Command words (spec/30_encoding.md Part A) -/

/-- R92: each of the four words, and no other, selects its command. -/
def Obligations.FourWordsSelectTheFourCommands : Prop :=
  ∀ w : Word,
    (decode w = .ok .embed ↔ w = 0x00000001) ∧ (decode w = .ok .extract ↔ w = 0x00000002) ∧
    (decode w = .ok .encrypt ↔ w = 0x00000003) ∧ (decode w = .ok .decrypt ↔ w = 0x00000004)

/-- R92 with the byte order of R61: a command's word, in a register or on the bus, decodes to the command. -/
def Obligations.DecodeOfEncodeIsTheCommand : Prop :=
  ∀ (i : Instr) (rest : List Byte), i.wellFormed = true →
    decode (encode i) = .ok i ∧ decodeBytes (encodeBytes i ++ rest) = .ok (i, rest)

/-- A few words written out from R90 and R92, and the words of V-CMD-1 to V-CMD-5 that select no row. -/
def Obligations.WrittenOutWordsDecode : Prop :=
  decode 0b00000000000000000000000000000001 = .ok .embed ∧
  decode 0b00000000000000000000000000000100 = .ok .decrypt ∧
  decodeBytes [0x02, 0x00, 0x00, 0x00] = .ok (.extract, []) ∧
  decode 0x00000000 = .error .reservedOpc ∧ decode 0x00000005 = .error .reservedOpc ∧
  decode 0x00000011 = .error .zeroFieldNotZero ∧ decode 0x80000002 = .error .zeroFieldNotZero

/-! ## Issue (R28, R93, R99, R225) -/

/-- A write to `CMD` of an idle block runs the decoded command, by register number or over the bus (R28, R43, R99);
the step around it takes the action off the host's script (log 1). With no action outstanding the block waits (R260:
"the block does nothing until the host writes `CMD`"). `exec` and `step` are the commands and the step of the reference
configuration of R6 (log 8). -/
def Obligations.StepRunsTheDecodedCommand : Prop :=
  (∀ (s : State) (rest : List HostAction) (i : Instr), s.idle →
    (∀ w, s.script = .regWrite 0 w :: rest → decode w = .ok i → step s = exec i { s with script := rest }) ∧
    (∀ bytes, s.script = .busWrite 0 bytes :: rest → decodeBytes bytes = .ok (i, []) →
      step s = exec i { s with script := rest }) ∧
    (∀ u : State, u.script = [] → step u = .next u)) ∧
  (∀ (i : Instr) (s : State), exec i s = execWith Config.reference i s) ∧
  (∀ s : State, step s = stepWith Config.reference s)

/-- R225: an illegal word in `CMD` of an idle block raises `ILLEGAL_CMD` and changes nothing but `STATUS`. -/
def Obligations.IllegalWordChangesStatusOnly : Prop :=
  ∀ (s : State) (w : Word), s.idle → w ∉ ([0x00000001, 0x00000002, 0x00000003, 0x00000004] : List Word) →
    hostAct (.regWrite 0 w) s = .next { s with status := 0x042 }

/-! ## The host's port (spec/10_state.md R43, R44; spec/20_memory.md R61, R63) -/

/-- R43: `RegRead(n)` of an idle block, for each of the eight registers. -/
def Obligations.RegReadReturnsTheRegister : Prop :=
  ∀ (s : State) (n : Nat) (v : Word), s.idle →
    (n, v) ∈ [(0, 0), (1, s.status &&& 0x173), (2, s.width), (3, s.height), (4, s.paylen), (5, s.msglen),
      (6, s.pwdlen), (7, s.cur)] →
    hostAct (.regRead n) s = .next { s with hostRead := some (.reg v) }

/-- R43: `RegWrite(n, v)` of an idle block sets operand register `n`, 2 to 6, and nothing else; a write to the
read-only registers `STATUS` and `CUR` is ignored. -/
def Obligations.RegWriteSetsOneOperandRegister : Prop :=
  ∀ (s : State) (n : Nat) (v : Word), s.idle →
    (2 ≤ n → n ≤ 6 → ∃ t, hostAct (.regWrite n v) s = .next t ∧ regValue t n = v ∧
      (∀ m, m ≠ n → regValue t m = regValue s m) ∧ (∀ σ, SameBytes σ s t) ∧ SameEntropy s t ∧ SameOutside s t) ∧
    (n = 1 ∨ n = 7 → hostAct (.regWrite n v) s = .next s)

/-- R44: register numbers 8 and above. -/
def Obligations.ReservedRegistersReadZeroAndIgnoreWrites : Prop :=
  ∀ (s : State) (n : Nat) (v : Word), s.idle → 8 ≤ n →
    hostAct (.regRead n) s = .next { s with hostRead := some (.reg 0) } ∧ hostAct (.regWrite n v) s = .next s

/-- R270, R271: while `BUSY = 1` the host may read `STATUS`, by number or over the bus (R43, R61), and nothing else. That
the host's test inside `ENCODE` is refused too, and the names of the refusals, are the model's (log 12). -/
def Obligations.BusyBlockRefusesTheHost : Prop :=
  ∀ s : State, s.busy = true →
    (∀ w, hostAct (.regWrite 0 w) s = .refused .commandWhileBusy) ∧
    (∀ w, hostAct (.commandIfNone w) s = .refused .commandWhileBusy) ∧
    (∀ n v, n ≠ 0 → hostAct (.regWrite n v) s = .refused .hostAccessWhileBusy) ∧
    (∀ n v, hostAct (.busWrite (4 * n) (bytesOfWord v)) s =
      .refused (if n = 0 then .commandWhileBusy else .hostAccessWhileBusy)) ∧
    (∀ n, n ≠ 1 → hostAct (.busRead (4 * n) 4) s = .refused .hostAccessWhileBusy) ∧
    (∀ n, n ≠ 1 → hostAct (.regRead n) s = .refused .hostAccessWhileBusy) ∧
    (∀ σ a, hostAct (.storeRead σ a) s = .refused .hostAccessWhileBusy) ∧
    (∀ σ a S, hostAct (.fill σ a S) s = .refused .hostAccessWhileBusy) ∧
    (∀ σ τ n, hostAct (.copy σ τ n) s = .refused .hostAccessWhileBusy) ∧
    hostAct (.regRead 1) s = .next { s with hostRead := some (.reg (s.status &&& 0x173)) } ∧
    hostAct (.busRead 4 4) s = .next { s with hostRead := some (.bus (bytesOfWord (s.status &&& 0x173))) }

/-- R63, R273: a bus access to the register window that is no aligned 32-bit word is refused; R43, R61: an aligned one is
the little-endian register. That offsets of 32 and above are the reserved registers of R44 is deduced (log 16). -/
def Obligations.BusWindowTakesAlignedWordsOnly : Prop :=
  ∀ s : State,
    (∀ offset data, data.length ≠ 4 ∨ offset % 4 ≠ 0 →
      hostAct (.busWrite offset data) s = .refused .busAccessForm) ∧
    (∀ offset width, width ≠ 4 ∨ offset % 4 ≠ 0 → hostAct (.busRead offset width) s = .refused .busAccessForm) ∧
    (∀ n v, hostAct (.busWrite (4 * n) (bytesOfWord v)) s = hostAct (.regWrite n v) s) ∧
    (∀ n, s.idle → hostAct (.busRead (4 * n) 4) s =
      .next { s with hostRead := some (.bus (bytesOfWord (regValue s n))) })

/-- R34: the reserved bits of `STATUS` read as 0 in every state, and no step that changes `STATUS` sets one or
produces a code above 4. -/
def Obligations.ReservedStatusBitsStayZero : Prop :=
  (∀ (s : State) (k : Nat), k ∉ [0, 1, 4, 5, 6, 8] → (regValue s 1).getLsbD k = false) ∧
  (∀ s t : State, step s = .next t → t.status ≠ s.status → t.status &&& 0xFFFFFE8C = 0 ∧ t.err.toNat ≤ 4)

/-- R73 and R60: `FILL` inside a store writes its bytes and no other byte, register or store; past the end of the
store it faults (the fault is the model's, log 9). -/
def Obligations.FillWritesItsBytes : Prop :=
  ∀ (s : State) (σ : Store) (a : Nat) (S : List Byte), s.idle →
    (a + S.length ≤ Config.reference.storeSize σ → ∃ t, hostAct (.fill σ a S) s = .next t ∧
      (∀ j, (hj : j < S.length) → memRead t σ (a + j) = S[j]) ∧
      (∀ b, b < a ∨ a + S.length ≤ b → memRead t σ b = memRead s σ b) ∧
      (∀ τ, τ ≠ σ → SameBytes τ s t) ∧ (∀ n, regValue t n = regValue s n) ∧ SameEntropy s t ∧ SameOutside s t) ∧
    (S ≠ [] → Config.reference.storeSize σ < a + S.length →
      ∃ b, hostAct (.fill σ a S) s = .fault (.storeIndexOutOfRange σ b))

/-- R73: reading a byte of a store returns it and changes nothing else; a read outside the store faults (log 9). -/
def Obligations.StoreReadHasNoSideEffect : Prop :=
  ∀ (s : State) (σ : Store) (a : Nat), s.idle →
    (a < Config.reference.storeSize σ →
      hostAct (.storeRead σ a) s = .next { s with hostRead := some (.byte (memRead s σ a)) }) ∧
    (Config.reference.storeSize σ ≤ a → hostAct (.storeRead σ a) s = .fault (.storeIndexOutOfRange σ a))

/-- R98, the lines `COPY` and `RNG`: `COPY` inside both stores copies the first `n` bytes and changes nothing else, past
the end of either it faults (log 9); `RNG` fixes the next answer of the entropy port and changes nothing else. Bytes that
are not `NONCE_SIZE` many are no answer of the port (R135) and leave its answer free (log 6). -/
def Obligations.CopyAndRngDoWhatTheirLinesSay : Prop :=
  ∀ (s : State) (target source : Store) (n : Nat) (r : RngAnswer Config.nonceSize), s.idle →
    (n ≤ Config.reference.storeSize source → n ≤ Config.reference.storeSize target →
      ∃ t, hostAct (.copy target source n) s = .next t ∧
        (∀ j, j < n → memRead t target j = memRead s source j) ∧ SameBytesFrom n target s t ∧
        (∀ τ, τ ≠ target → SameBytes τ s t) ∧ (∀ m, regValue t m = regValue s m) ∧ SameEntropy s t ∧
        SameOutside s t) ∧
    (Config.reference.storeSize source < n ∨ Config.reference.storeSize target < n →
      ∃ σ b, hostAct (.copy target source n) s = .fault (.storeIndexOutOfRange σ b)) ∧
    (∃ t, hostAct (.rng (.ofAnswer r)) s = .next t ∧ rngNextAnswer Config.reference t = r ∧
      t.draws = s.draws ∧ (∀ σ, SameBytes σ s t) ∧ (∀ m, regValue t m = regValue s m) ∧ SameOutside s t) ∧
    (∀ b, b.length ≠ Config.nonceSize → ∃ t, hostAct (.rng (.bytes b)) s = .next t ∧
      rngNextAnswer Config.reference t = Config.rngAnswer Config.nonceSize s.draws ∧ t.draws = s.draws ∧
      (∀ σ, SameBytes σ s t) ∧ (∀ m, regValue t m = regValue s m) ∧ SameOutside s t)

/-! ## Reset (R46, R260, R262) -/

/-- R46 for the registers; the store bytes after reset are free values, the model's form of "unspecified" (log 3). -/
def Obligations.ResetValues : Prop :=
  (∀ n, regValue State.reset n = 0) ∧ State.reset.status = 0x00000000 ∧ State.reset.idle ∧
  State.reset.done = false ∧ State.reset.err = 0 ∧ State.reset.sub = false ∧
  (∀ σ a, memRead State.reset σ a = Config.unwrittenByte 0 σ a)

/-- R260: the reset event, from every state, busy or not; the bytes after it are those of a new reset period
(log 3), and the entropy port is left alone (log 13). -/
def Obligations.ResetEventFromEveryState : Prop :=
  ∀ (s : State) (rest : List HostAction), s.script = .reset :: rest →
    ∃ t, step s = .next t ∧ (∀ n, regValue t n = 0) ∧ t.status = 0x00000000 ∧
      (∀ σ a, memRead t σ a = Config.unwrittenByte (s.resets + 1) σ a) ∧ SameEntropy s t ∧ t.script = rest

/-- R262: every command with nothing set up, whatever the stores hold: none reads a byte or makes a draw. -/
def Obligations.CommandsStraightAfterReset : Prop :=
  ∀ s : State, s.width = 0 → s.height = 0 → s.paylen = 0 → s.msglen = 0 → s.pwdlen = 0 → s.cur = 0 →
    exec .embed s = .next { s with status := 0x012 } ∧ exec .extract s = .next { s with status := 0x002 } ∧
    exec .encrypt s = .next { s with status := 0x002 } ∧ exec .decrypt s = .next { s with status := 0x002 }

/-! ## Data formats (spec/30_encoding.md Part B) -/

/-- R101: the digits of the header. -/
def Obligations.HeaderIsEightDecimalDigits : Prop :=
  ∀ L, L ≤ 99999999 → (hdr L).length = 8 ∧
    ∀ i, i < 8 → ((hdr L).getD i 0).toNat = 0x30 + (L / 10 ^ (7 - i)) % 10

/-- R102: exactly the strings of eight digits parse, to their decimal value. -/
def Obligations.HeaderParserTakesDigitsOnly : Prop :=
  ∀ h : List Byte, h.length = 8 →
    ((∀ i, i < 8 → 0x30 ≤ (h.getD i 0).toNat ∧ (h.getD i 0).toNat ≤ 0x39) →
      hdrParse h = some (∑ i ∈ Finset.range 8, (((h.getD i 0).toNat : Int) - 0x30) * 10 ^ (7 - i))) ∧
    ((∃ i, i < 8 ∧ ¬ (0x30 ≤ (h.getD i 0).toNat ∧ (h.getD i 0).toNat ≤ 0x39)) → hdrParse h = none)

/-- R102: `HDR_PARSE(Hdr(L)) = some(L)` for every `L` below 10^8. -/
def Obligations.HeaderParsesBack : Prop :=
  ∀ L, L < 100000000 → hdrParse (hdr L) = some (L : Int)

/-- R104: `GatherByte` is the inverse of `Bit`. -/
def Obligations.GatherByteInvertsBit : Prop :=
  ∀ (s : State) (S : List Byte) (j : Nat), j < S.length →
    (∀ t, t < 8 → slotBit s (8 * j + t) = bit S (8 * j + t)) → gatherByte s (8 * j) = S.getD j 0

/-- R105, R107: the slots of an image of `N` pixels are its red, green and blue bytes, each once, in row-major
order, and no alpha byte is a slot. -/
def Obligations.SlotsAreTheColourBytes : Prop :=
  (∀ j k, slotAddr j = slotAddr k → j = k) ∧ (∀ k, slotAddr k % 4 ≠ 3) ∧
  (∀ N k, slotAddr k < 4 * N ↔ k < 3 * N) ∧
  (∀ N i, i < 4 * N → i % 4 ≠ 3 → ∃ k, k < 3 * N ∧ slotAddr k = i) ∧
  (∀ width k, slotAddr k = 4 * pixelIndex width (slotColumn width k) (slotRow width k) + slotChannel k)

/-- R66, R175: the least-significant-bit write: bit 0 is the data bit, bits 7 to 1 stay, the value moves by at most
1 and stays a byte. -/
def Obligations.LsbWriteMovesByAtMostOne : Prop :=
  ∀ (old : Byte) (b : Bool),
    (setLsb old b).getLsbD 0 = b ∧ (setLsb old b).toNat / 2 = old.toNat / 2 ∧
    ((setLsb old b).toNat : Int) - old.toNat = (if b then 1 else 0) - (if old.getLsbD 0 then 1 else 0)

/-- R106, R168: `EMBED` succeeds exactly when the payload is within the embed capacity `min(PixelCap(N), 10^8 - 1)`,
which may be negative. -/
def Obligations.EmbedSucceedsExactlyWithinCapacity : Prop :=
  ∀ s : State, pixelCount s ≤ Config.maxPixels →
    ((∃ t, exec .embed s = .next t ∧ t.status = 0x002) ↔ (s.paylen.toNat : Int) ≤ embedCap (pixelCount s)) ∧
    ((s.paylen.toNat : Int) ≤ embedCap (pixelCount s) ↔ fits s.paylen.toNat (pixelCount s) = true)

/-! ## EMBED (R161 to R164, R173) -/

/-- R161: both outcomes of `EMBED`, with the closed form of the image on success. -/
def Obligations.EmbedScattersTheFrame : Prop :=
  ∀ s : State, pixelCount s ≤ Config.maxPixels → s.paylen.toNat ≤ Config.payCap →
    let N := pixelCount s
    let L := s.paylen.toNat
    let T := 8 * (8 + L)
    let B := hdr L ++ readBytes s .pay 0 L
    if L ≥ 100000000 ∨ T > 3 * N then exec .embed s = .next { s with cur := 0, status := 0x012 }
    else ∃ d, let t : State := { s with dst := d, cur := BitVec.ofNat 32 T, status := 0x002 }
      exec .embed s = .next t ∧ t.cur.toNat = T ∧
      (∀ i, i < 4 * N → memRead t .dst i =
        if i % 4 ≤ 2 ∧ 3 * (i / 4) + i % 4 < T then
          (memRead s .src i &&& 0xFE) ||| (if bit B (3 * (i / 4) + i % 4) then 1 else 0)
        else memRead s .src i) ∧
      (∀ i, 4 * N ≤ i → memRead t .dst i = memRead s .dst i)

/-- R75, R163: the frame of `EMBED`: `CUR`, `STATUS` and `DST[0 .. 4N)` alone may change, and `DST` only on
success. -/
def Obligations.EmbedFrame : Prop :=
  ∀ s t : State, exec .embed s = .next t →
    SameSetup s t ∧ t.paylen = s.paylen ∧ t.msglen = s.msglen ∧
    (∀ σ, σ ≠ .dst → SameBytes σ s t) ∧ SameBytesFrom (4 * pixelCount s) .dst s t ∧
    (t.status ≠ 0x002 → SameBytes .dst s t ∧ t.cur = 0) ∧ SameEntropy s t ∧ SameOutside s t

/-- R164, points (1) to (5): what a successful `EMBED` leaves as in the source image. -/
def Obligations.UntouchedPixelsAreCopies : Prop :=
  ∀ s t : State, exec .embed s = .next t → t.status = 0x002 →
    let N := pixelCount s
    let T := 8 * (8 + s.paylen.toNat)
    (∀ p, p < N → memRead t .dst (4 * p + 3) = memRead s .src (4 * p + 3)) ∧
    (∀ i, i < 4 * N → (T - 1) / 3 < i / 4 → memRead t .dst i = memRead s .src i) ∧
    (∀ i, i < 4 * N → i % 4 ≤ 2 → T ≤ 3 * (i / 4) + i % 4 → memRead t .dst i = memRead s .src i) ∧
    (∀ i, i < 4 * N → (memRead t .dst i).toNat / 2 = (memRead s .src i).toNat / 2) ∧
    t.width = s.width ∧ t.height = s.height

/-- R164: the bytes of `DST` that differ from `SRC` are exactly those of the slots below `T` whose bit disagrees with the
frame; so, as its last sentence says, they are as many as those slots, and at most `T`. -/
def Obligations.EmbedChangesExactlyTheDisagreeingSlots : Prop :=
  ∀ s t : State, exec .embed s = .next t → t.status = 0x002 →
    let N := pixelCount s
    let T := 8 * (8 + s.paylen.toNat)
    let changed := (Finset.range (4 * N)).filter fun i => memRead t .dst i ≠ memRead s .src i
    let disagreeing := (Finset.range T).filter fun k => slotBit s k ≠ bit (frame (payload s)) k
    changed = disagreeing.image slotAddr ∧ changed.card = disagreeing.card ∧ changed.card ≤ T

/-- R162: `EMBED` as slot steps: the state after `k` of them, and the command as `T` of them. -/
def Obligations.EmbedIsItsSlotSteps : Prop :=
  ∀ s : State, pixelCount s ≤ Config.maxPixels → fits s.paylen.toNat (pixelCount s) = true →
    let N := pixelCount s
    let T := 8 * (8 + s.paylen.toNat)
    let B := frame (payload s)
    let after := fun k => embedSlots B k ((copyImage s).setCur 0)
    exec .embed s = .next (finish (after T)) ∧
    ∀ k, k ≤ T → (after k).cur.toNat = k ∧
      (∀ j, j < T → memRead (after k) .dst (slotAddr j) =
        if j < k then setLsb (memRead s .src (slotAddr j)) (bit B j) else memRead s .src (slotAddr j)) ∧
      (∀ i, i < 4 * N → (∀ j, j < k → slotAddr j ≠ i) → memRead (after k) .dst i = memRead s .src i)

/-- R172: `EMBED` is a function of the registers and stores of its row of R75. -/
def Obligations.EmbedIsAFunctionOfItsRow : Prop :=
  ∀ s s' t : State, s'.width = s.width → s'.height = s.height → s'.paylen = s.paylen →
    (∀ i, i < 4 * pixelCount s → memRead s' .src i = memRead s .src i) →
    (∀ i, i < s.paylen.toNat → memRead s' .pay i = memRead s .pay i) → exec .embed s = .next t →
    ∃ t', exec .embed s' = .next t' ∧ t'.status = t.status ∧ t'.cur = t.cur ∧
      (t.status = 0x002 → ∀ i, i < 4 * pixelCount s → memRead t' .dst i = memRead t .dst i)

/-! ## EXTRACT (R165 to R167, R172) -/

/-- R165: every outcome of `EXTRACT`. -/
def Obligations.ExtractGathersThePayload : Prop :=
  ∀ s : State, pixelCount s ≤ Config.maxPixels →
    let N := pixelCount s
    let empty := fun c : Word => exec .extract s = .next { s with paylen := 0, cur := c, status := 0x002 }
    if 3 * N < 64 then empty 0
    else
      match hdrParse ((List.range 8).map fun i => gatherByte s (8 * i)) with
      | none => empty 64
      | some m =>
        if m ≤ 0 ∨ m > 1000000 then empty 64
        else if 64 + 8 * m > 3 * N then empty 64
        else ∃ d, let t : State :=
            { s with pay := d, paylen := BitVec.ofInt 32 m, cur := BitVec.ofInt 32 (64 + 8 * m), status := 0x002 }
          exec .extract s = .next t ∧ (t.paylen.toNat : Int) = m ∧ (t.cur.toNat : Int) = 64 + 8 * m ∧
          (∀ j : Nat, (j : Int) < m → memRead t .pay j = gatherByte s (64 + 8 * j)) ∧
          (∀ j : Nat, m ≤ j → memRead t .pay j = memRead s .pay j)

/-- R75: the frame of `EXTRACT`: `PAYLEN`, `CUR`, `STATUS` and `PAY[0 .. new PAYLEN)` alone may change. Beside it, the
outcome in every configuration of R6, with its own `HDR_PARSE` and `EXTRACT_OVERRUN`: under `PARTIAL` "the `(3N - 64) div
8` whole bytes available" (D13), with `CUR` after them as R27 has it; that reading is deduced (log 10). -/
def Obligations.ExtractFrame : Prop :=
  (∀ s t : State, exec .extract s = .next t →
    SameSetup s t ∧ t.msglen = s.msglen ∧ (∀ σ, σ ≠ .pay → SameBytes σ s t) ∧
    SameBytesFrom t.paylen.toNat .pay s t ∧ SameEntropy s t ∧ SameOutside s t) ∧
  (∀ (c : Params) (s : State), pixelCount s ≤ c.maxPixels →
    let N := pixelCount s
    let empty := fun cur : Word => execWith c .extract s = .next { s with paylen := 0, cur := cur, status := 0x002 }
    let returns := fun m : Nat => ∃ d,
      let t : State :=
        { s with pay := d, paylen := BitVec.ofNat 32 m, cur := BitVec.ofNat 32 (64 + 8 * m), status := 0x002 }
      execWith c .extract s = .next t ∧ t.paylen.toNat = m ∧ t.cur.toNat = 64 + 8 * m ∧
      (∀ j, j < m → memRead t .pay j = gatherByte s (64 + 8 * j)) ∧ SameBytesFrom m .pay s t
    if 3 * N < 64 then empty 0
    else
      match c.hdrParse ((List.range 8).map fun i => gatherByte s (8 * i)) with
      | none => empty 64
      | some m =>
        if m ≤ 0 ∨ m > 1000000 then empty 64
        else if 64 + 8 * m > 3 * N then
          match c.extractOverrun with
          | .emptyPayload => empty 64
          | .partialPayload => returns ((3 * N - 64) / 8)
        else returns m.toNat)

/-- R167: `EXTRACT` and its slot-step decomposition reach the same state, in the reference configuration and in every
other (R6). That the decomposition goes on after a header under `PARTIAL`, of which R165 and R167 say nothing, is the
model's deduction (log 10). -/
def Obligations.ExtractIsItsSlotSteps : Prop :=
  (∀ s : State, pixelCount s ≤ Config.maxPixels → exec .extract s = .next (extractBySlots Config.reference s)) ∧
  (∀ (c : Params) (s : State), pixelCount s ≤ c.maxPixels → execWith c .extract s = .next (extractBySlots c s))

/-- R165 (g), R276: only the pixel count and the least-significant bits of the slots have influence on the
result. -/
def Obligations.ExtractReadsOnlySlotBits : Prop :=
  ∀ s s' t : State, pixelCount s' = pixelCount s → (∀ k, k < 3 * pixelCount s → slotBit s' k = slotBit s k) →
    exec .extract s = .next t →
    ∃ t', exec .extract s' = .next t' ∧ t'.status = t.status ∧ t'.cur = t.cur ∧ t'.paylen = t.paylen ∧
      ∀ j, j < t.paylen.toNat → memRead t' .pay j = memRead t .pay j

/-- R169: the round trip without a cipher. The image may be described by another width and height of the same
product, and what stood in `PAY` and `PAYLEN` before `EXTRACT` does not matter. -/
def Obligations.EmbedThenExtractReturnsThePayload : Prop :=
  ∀ (s : State) (w h n : Word) (junk : List Byte), s.idle → pixelCount s ≤ Config.maxPixels →
    8 * s.paylen.toNat + 64 ≤ 3 * pixelCount s → s.paylen.toNat ≤ 1000000 →
    w.toNat * h.toNat = pixelCount s → junk.length ≤ Config.payCap →
    ∃ t, runActions [cmd .embed, reloadImage (pixelCount s), .regWrite 2 w, .regWrite 3 h, .fill .pay 0 junk,
        .regWrite 4 n, cmd .extract] s = .next t ∧
      t.status = 0x002 ∧ t.paylen = s.paylen ∧ payload t = payload s

/-! ## ENCRYPT and DECRYPT (R136 to R142) -/

/-- R136: every outcome of `ENCRYPT`. -/
def Obligations.EncryptWritesTheRecord : Prop :=
  ∀ s : State, s.msglen.toNat ≤ Config.msgCap → s.pwdlen.toNat ≤ Config.pwdCap →
    (s.pwdlen = 0 → s.msglen.toNat ≤ Config.payCap) →
    (s.pwdlen ≠ 0 → Config.nonceSize + s.msglen.toNat + Config.tagSize ≤ Config.payCap) →
    let M := s.msglen.toNat
    let R := Config.nonceSize + M + Config.tagSize
    let msg := readBytes s .msg 0 M
    let pwd := readBytes s .pwd 0 s.pwdlen.toNat
    if s.pwdlen = 0 then
      ∃ d, let t : State := { s with pay := d, paylen := s.msglen, status := 0x002 }
        exec .encrypt s = .next t ∧ readBytes t .pay 0 M = msg ∧ SameBytesFrom M .pay s t
    else
      match rngNextAnswer Config.reference s with
      | .fail => exec .encrypt s = .next { s with draws := s.draws + 1, rngNext := none, status := 0x022 }
      | .bytes r =>
        ∃ d, let t : State :=
            { s with pay := d, paylen := BitVec.ofNat 32 R, draws := s.draws + 1, rngNext := none, status := 0x002 }
          exec .encrypt s = .next t ∧ t.paylen.toNat = R ∧
          readBytes t .pay 0 R = r.toList ++ Config.aead.encipher (Config.hash256 pwd) r.toList msg ∧
          SameBytesFrom R .pay s t

/-- R137: every outcome of `DECRYPT`. -/
def Obligations.DecryptOpensTheRecord : Prop :=
  ∀ s : State, s.paylen.toNat ≤ Config.payCap → s.pwdlen.toNat ≤ Config.pwdCap → s.paylen.toNat ≤ Config.msgCap →
    let L := s.paylen.toNat
    let p := readBytes s .pay 0 L
    let pwd := readBytes s .pwd 0 s.pwdlen.toNat
    if s.pwdlen = 0 then
      ∃ d, let t : State := { s with msg := d, msglen := s.paylen, status := 0x002 }
        exec .decrypt s = .next t ∧ readBytes t .msg 0 L = p ∧ SameBytesFrom L .msg s t
    else if L < Config.nonceSize then exec .decrypt s = .next { s with status := 0x132 }
    else
      match Config.aead.decipher (Config.hash256 pwd) (p.take Config.nonceSize) (p.drop Config.nonceSize) with
      | none => exec .decrypt s = .next { s with status := 0x032 }
      | some r =>
        ∃ d, let t : State := { s with msg := d, msglen := BitVec.ofNat 32 r.length, status := 0x002 }
          exec .decrypt s = .next t ∧ t.msglen.toNat = r.length ∧
          r.length = L - Config.nonceSize - Config.tagSize ∧
          readBytes t .msg 0 r.length = r ∧ SameBytesFrom r.length .msg s t

/-- R75, R229: the frame of `ENCRYPT`: `PAYLEN`, `STATUS` and `PAY[0 .. new PAYLEN)` alone may change, the entropy port
apart, and `PAY` and `PAYLEN` only on success. -/
def Obligations.EncryptFrame : Prop :=
  ∀ s t : State, exec .encrypt s = .next t →
    SameSetup s t ∧ t.msglen = s.msglen ∧ t.cur = s.cur ∧ (∀ σ, σ ≠ .pay → SameBytes σ s t) ∧
    SameBytesFrom t.paylen.toNat .pay s t ∧ (t.status ≠ 0x002 → SameBytes .pay s t ∧ t.paylen = s.paylen) ∧
    (s.pwdlen = 0 → SameEntropy s t) ∧ SameOutside s t

/-- R75, R229: the frame of `DECRYPT`: `MSGLEN`, `STATUS` and `MSG[0 .. new MSGLEN)` alone may change, and `MSG` and
`MSGLEN` only on success. -/
def Obligations.DecryptFrame : Prop :=
  ∀ s t : State, exec .decrypt s = .next t →
    SameSetup s t ∧ t.paylen = s.paylen ∧ t.cur = s.cur ∧ (∀ σ, σ ≠ .msg → SameBytes σ s t) ∧
    SameBytesFrom t.msglen.toNat .msg s t ∧ (t.status ≠ 0x002 → SameBytes .msg s t ∧ t.msglen = s.msglen) ∧
    SameEntropy s t ∧ SameOutside s t

/-- R138: the lengths after a successful `ENCRYPT` or `DECRYPT`, in the reference configuration and in every other. -/
def Obligations.RecordLengths : Prop :=
  (∀ s t : State, exec .encrypt s = .next t → t.status = 0x002 → t.paylen.toNat =
    if s.pwdlen = 0 then s.msglen.toNat else Config.nonceSize + s.msglen.toNat + Config.tagSize) ∧
  (∀ s t : State, exec .decrypt s = .next t → t.status = 0x002 →
    if s.pwdlen = 0 then t.msglen.toNat = s.paylen.toNat
    else t.msglen.toNat + Config.nonceSize + Config.tagSize = s.paylen.toNat) ∧
  (∀ (c : Params) (s t : State), execWith c .encrypt s = .next t → t.status = 0x002 → t.paylen.toNat =
    if s.pwdlen = 0 then s.msglen.toNat else c.nonceSize + s.msglen.toNat + c.tagSize) ∧
  (∀ (c : Params) (s t : State), execWith c .decrypt s = .next t → t.status = 0x002 →
    if s.pwdlen = 0 then t.msglen.toNat = s.paylen.toNat
    else t.msglen.toNat + c.nonceSize + c.tagSize = s.paylen.toNat)

/-- R223: when `DECRYPT` raises, with which sub-cause, and that nothing but `STATUS` tells. -/
def Obligations.DecryptionErrorTellsOnlyTheLength : Prop :=
  ∀ s t : State, exec .decrypt s = .next t →
    (t.err = 3 ↔ s.pwdlen ≠ 0 ∧
      (s.paylen.toNat < Config.nonceSize ∨
        Config.aead.decipher (Config.hash256 (password s)) ((payload s).take Config.nonceSize)
          ((payload s).drop Config.nonceSize) = none)) ∧
    (t.err = 3 → t = { s with status := if s.paylen.toNat < Config.nonceSize then 0x132 else 0x032 })

/-- R139: `DECRYPT` is a function of its row of R75, `ENCRYPT` of its row and the draw; two records of the same
inputs under a password are equal exactly when their draws are. -/
def Obligations.CipherCommandsAreFunctionsOfTheirRows : Prop :=
  (∀ s s' t : State, s'.paylen = s.paylen → s'.pwdlen = s.pwdlen → payload s' = payload s →
    password s' = password s → exec .decrypt s = .next t →
    ∃ t', exec .decrypt s' = .next t' ∧ t'.status = t.status ∧
      (t.status = 0x002 → t'.msglen = t.msglen ∧ message t' = message t)) ∧
  (∀ s s' t : State, s'.msglen = s.msglen → s'.pwdlen = s.pwdlen → message s' = message s →
    password s' = password s → exec .encrypt s = .next t → t.status = 0x002 →
    (s.pwdlen ≠ 0 → rngNextAnswer Config.reference s' ≠ .fail) →
    ∃ t', exec .encrypt s' = .next t' ∧ t'.status = 0x002 ∧ t'.paylen = t.paylen ∧
      (payload t' = payload t ↔ s.pwdlen = 0 ∨ rngNextAnswer Config.reference s' = rngNextAnswer Config.reference s))

/-- R140, first half: `DECRYPT` of what `ENCRYPT` wrote, with the same password, empty or not, returns the message,
whatever the host put in `MSG` and `MSGLEN` between them; and so in every configuration of R6, one command after the
other, where the record fits `MSG`. It rests on `OPEN_SEAL` alone (log 7). -/
def Obligations.EncryptThenDecryptReturnsTheMessage : Prop :=
  (∀ (s : State) (n : Word) (junk : List Byte), s.idle →
    (s.pwdlen ≠ 0 → Config.nonceSize + s.msglen.toNat + Config.tagSize ≤ Config.payCap ∧
      rngNextAnswer Config.reference s ≠ .fail) →
    junk.length ≤ Config.msgCap →
    ∃ t, runActions [cmd .encrypt, .fill .msg 0 junk, .regWrite 5 n, cmd .decrypt] s = .next t ∧
      t.status = 0x002 ∧ t.msglen = s.msglen ∧ message t = message s) ∧
  (∀ (c : Params) (s e : State), (s.pwdlen ≠ 0 → rngNextAnswer c s ≠ .fail) → execWith c .encrypt s = .next e →
    e.paylen.toNat ≤ c.msgCap →
    ∃ t, execWith c .decrypt e = .next t ∧ t.status = 0x002 ∧ t.msglen = s.msglen ∧ message t = message s)

/-- R140, second half, with no idealised property: with another non-empty password `DECRYPT` fails closed, leaving
`MSG` and `MSGLEN` alone, unless the cipher itself opens the record under that password's key. -/
def Obligations.AnotherPasswordFailsUnlessTheCipherOpens : Prop :=
  ∀ (s : State) (r : Vector Byte Config.nonceSize) (other : List Byte), s.idle → s.pwdlen ≠ 0 →
    Config.nonceSize + s.msglen.toNat + Config.tagSize ≤ Config.payCap → rngNextAnswer Config.reference s = .bytes r →
    other ≠ [] → other.length ≤ Config.pwdCap →
    ∃ t, runActions [cmd .encrypt, .fill .pwd 0 other, .regWrite 6 (BitVec.ofNat 32 other.length), cmd .decrypt] s
        = .next t ∧
      (Config.aead.decipher (Config.hash256 other) r.toList
          (Config.aead.encipher (Config.hash256 (password s)) r.toList (message s)) = none ↔ t.status = 0x032) ∧
      (t.status = 0x032 → t.msglen = s.msglen ∧ SameBytes .msg s t)

/-- R141, R205: nothing marks a payload as a record. A record read back without a password is returned as it stands; a
plain payload shorter than the nonce, read back with a password, is "too short". -/
def Obligations.NothingMarksARecord : Prop :=
  (∀ (s : State) (r : Vector Byte Config.nonceSize), s.idle → s.pwdlen ≠ 0 →
    Config.nonceSize + s.msglen.toNat + Config.tagSize ≤ Config.payCap → rngNextAnswer Config.reference s = .bytes r →
    ∃ t, runActions [cmd .encrypt, .regWrite 6 0, cmd .decrypt] s = .next t ∧ t.status = 0x002 ∧
      t.msglen.toNat = Config.nonceSize + s.msglen.toNat + Config.tagSize ∧
      message t = r.toList ++ Config.aead.encipher (Config.hash256 (password s)) r.toList (message s)) ∧
  (∀ (s : State) (other : List Byte), s.idle → s.pwdlen = 0 → s.msglen.toNat < Config.nonceSize →
    other ≠ [] → other.length ≤ Config.pwdCap →
    ∃ t, runActions [cmd .encrypt, .fill .pwd 0 other, .regWrite 6 (BitVec.ofNat 32 other.length), cmd .decrypt] s
        = .next t ∧ t.status = 0x132 ∧ t.msglen = s.msglen ∧ SameBytes .msg s t)

/-! ## Rules about every command (R75, R220, R229, R230) -/

/-- R220: the values of `STATUS` each command can end with. -/
def Obligations.ResultCodesOfEachCommand : Prop :=
  ∀ (i : Instr) (s t : State), exec i s = .next t → t.status ∈
    match i with
    | .embed => ([0x002, 0x012] : List Word)
    | .extract => [0x002]
    | .encrypt => [0x002, 0x022]
    | .decrypt => [0x002, 0x032, 0x132]

/-- R229: a command that raises leaves every store and output length as it was; `CUR` is 0 after a failed `EMBED`
and otherwise unchanged; entropy stays consumed. -/
def Obligations.NoPartialResults : Prop :=
  ∀ (i : Instr) (s t : State), exec i s = .next t → t.err ≠ 0 →
    (∀ σ, SameBytes σ s t) ∧ t.paylen = s.paylen ∧ t.msglen = s.msglen ∧
    t.cur = (if i = .embed then 0 else s.cur) ∧ t.draws = s.draws + (if i = .encrypt then 1 else 0)

/-- R226: what is not an error. -/
def Obligations.WhatIsNotAnError : Prop :=
  (∀ s t : State, exec .extract s = .next t → t.err = 0) ∧
  (∀ s t : State, s.pwdlen = 0 → exec .decrypt s = .next t → t.err = 0) ∧
  (∀ s : State, pixelCount s ≤ Config.maxPixels → 1000000 < s.paylen.toNat → s.paylen.toNat < 100000000 →
    8 * (8 + s.paylen.toNat) ≤ 3 * pixelCount s → ∃ t, exec .embed s = .next t ∧ t.err = 0)

/-- R32, R230: no command's behaviour depends on what `STATUS` held before it. -/
def Obligations.EarlierResultsDoNotMatter : Prop :=
  ∀ (i : Instr) (s : State) (v : Word), exec i { s with status := v } = exec i s

/-- R70, R75: no command writes `SRC`, `PWD`, `WIDTH`, `HEIGHT` or `PWDLEN`, and each output has its writers. -/
def Obligations.CommandsWriteOnlyTheirRow : Prop :=
  ∀ (i : Instr) (s t : State), exec i s = .next t →
    SameBytes .src s t ∧ SameBytes .pwd s t ∧ SameSetup s t ∧
    (i ≠ .embed → SameBytes .dst s t) ∧
    (i ≠ .encrypt → i ≠ .extract → SameBytes .pay s t ∧ t.paylen = s.paylen) ∧
    (i ≠ .decrypt → SameBytes .msg s t ∧ t.msglen = s.msglen) ∧
    (i ≠ .embed → i ≠ .extract → t.cur = s.cur)

/-- R70: no command reads `DST`: its outcome is the same whatever `DST` holds, but for the bytes of `DST` it does not
write. -/
def Obligations.NoCommandReadsDst : Prop :=
  ∀ (i : Instr) (s t : State) (d : Memory), exec i s = .next t →
    ∃ t', exec i { s with dst := d } = .next t' ∧ { t' with dst := t.dst } = t ∧
      (i = .embed → t.status = 0x002 → ∀ j, j < 4 * pixelCount s → memRead t' .dst j = memRead t .dst j)

/-- R75, R232: one request to the entropy port by `ENCRYPT` with a non-empty password, none by anything else. -/
def Obligations.OnlyEncryptDraws : Prop :=
  ∀ (i : Instr) (s t : State), exec i s = .next t →
    t.draws = s.draws + (if i = .encrypt ∧ s.pwdlen ≠ 0 then 1 else 0)

/-- R272: a command is refused exactly when a launch premise fails, and then has no result, in the reference
configuration and in every other. -/
def Obligations.LaunchPremisesRefuse : Prop :=
  (∀ s : State,
    ((∃ r, exec .embed s = .refused r) ↔
      s.width.toNat * s.height.toNat > Config.maxPixels ∨ s.paylen.toNat > Config.payCap) ∧
    ((∃ r, exec .extract s = .refused r) ↔ s.width.toNat * s.height.toNat > Config.maxPixels) ∧
    ((∃ r, exec .encrypt s = .refused r) ↔ s.msglen.toNat > Config.msgCap ∨ s.pwdlen.toNat > Config.pwdCap ∨
      (if s.pwdlen.toNat > 0 then Config.nonceSize + s.msglen.toNat + Config.tagSize else s.msglen.toNat)
        > Config.payCap) ∧
    ((∃ r, exec .decrypt s = .refused r) ↔
      s.paylen.toNat > Config.payCap ∨ s.pwdlen.toNat > Config.pwdCap ∨ s.paylen.toNat > Config.msgCap)) ∧
  (∀ (c : Params) (s : State),
    ((∃ r, execWith c .embed s = .refused r) ↔
      s.width.toNat * s.height.toNat > c.maxPixels ∨ s.paylen.toNat > c.payCap) ∧
    ((∃ r, execWith c .extract s = .refused r) ↔ s.width.toNat * s.height.toNat > c.maxPixels) ∧
    ((∃ r, execWith c .encrypt s = .refused r) ↔ s.msglen.toNat > c.msgCap ∨ s.pwdlen.toNat > c.pwdCap ∨
      (if s.pwdlen.toNat > 0 then c.nonceSize + s.msglen.toNat + c.tagSize else s.msglen.toNat) > c.payCap) ∧
    ((∃ r, execWith c .decrypt s = .refused r) ↔
      s.paylen.toNat > c.payCap ∨ s.pwdlen.toNat > c.pwdCap ∨ s.paylen.toNat > c.msgCap))

/-! ## Pipelines (spec/42_pipelines.md) -/

/-- R200, R201: the two pseudo-instructions are their commands in order, `ENCODE` with the host's test between. -/
def Obligations.PipelinesAreTheirCommands : Prop :=
  ∀ s e : State, s.idle →
    (exec .encrypt s = .next e →
      runActions encodeSequence s = if e.err = 0 then exec .embed e else .next e) ∧
    (exec .extract s = .next e → runActions decodeSequence s = exec .decrypt e)

/-- R202 with R140 for the empty password: `ENCODE`, copying `DST` to `SRC`, `DECODE` with the same password returns the
message, whatever the host put in `MSG` and `MSGLEN` in between. -/
def Obligations.EncodeThenDecodeReturnsTheMessage : Prop :=
  ∀ (s : State) (n : Word) (junk : List Byte), s.idle → pixelCount s ≤ Config.maxPixels →
    let R := if s.pwdlen = 0 then s.msglen.toNat else Config.nonceSize + s.msglen.toNat + Config.tagSize
    8 * R + 64 ≤ 3 * pixelCount s → R ≤ 1000000 → (s.pwdlen ≠ 0 → rngNextAnswer Config.reference s ≠ .fail) →
    junk.length ≤ Config.msgCap →
    ∃ t, runActions (encodeSequence ++
        [reloadImage (pixelCount s), .fill .msg 0 junk, .regWrite 5 n] ++ decodeSequence) s = .next t ∧
      t.status = 0x002 ∧ t.msglen = s.msglen ∧ message t = message s

/-- R203: `DECODE` of an image that carries no message. -/
def Obligations.DecodeOfNoMessage : Prop :=
  ∀ s e : State, s.idle → exec .extract s = .next e → e.paylen = 0 →
    ∃ t, runActions decodeSequence s = .next t ∧ t.paylen = 0 ∧
      (s.pwdlen = 0 → t.status = 0x002 ∧ t.msglen = 0) ∧
      (s.pwdlen ≠ 0 → t.status = 0x132 ∧ t.msglen = s.msglen)

/-- R204: the bounds on the message are the precondition of R202 on the record. -/
def Obligations.LargestRoundTripMessage : Prop :=
  ∀ (c : Params) (M N : Nat),
    (8 * M + 64 ≤ 3 * N ∧ M ≤ 1000000 ↔ (M : Int) ≤ roundTripCap N) ∧
    (8 * recordLen c M + 64 ≤ 3 * N ∧ recordLen c M ≤ 1000000 ↔
      (M : Int) ≤ roundTripCap N - c.nonceSize - c.tagSize)

/-! ## The invariant -/

/-- The block at reset meets the invariant. -/
def Obligations.ResetMeetsTheInvariant : Prop := State.reset.Inv

/-- Every step keeps the invariant: `STATUS` is one of the values of R29 an idle block can show, `CUR` is at most
800,000,056 (R27), every store is in canonical form and lists nothing outside itself (R60, R73). So does every step of a
block of any other configuration. -/
def Obligations.EveryStepKeepsTheInvariant : Prop :=
  (∀ s t : State, s.Inv → step s = .next t → t.Inv) ∧
  (∀ (c : Params) (s t : State), s.InvWith c → stepWith c s = .next t → t.InvWith c)

/-- R30: no host action ever observes `BUSY = 1`: a step from an idle block leaves it idle. -/
def Obligations.NoStepLeavesTheBlockBusy : Prop :=
  ∀ s t : State, s.idle → step s = .next t → t.idle
end

