-- ==== Sys2Proof/Laws/Cipher.lean ====
section
/-! SUPPORT. The two idealised properties of R134 cannot hold (log 7): a statement that assumed one would be true of
anything. So no statement assumes either. -/

namespace Sys2Proof.Machine

/-- There are more passwords than keys, so `HASH_INJ` fails for every hash. -/
theorem not_hashInj : ¬ HashInj := by
  intro h
  have hf : Finite Key := by
    have hb : Finite Byte := Finite.of_injective BitVec.toFin fun x y h => BitVec.eq_of_toFin_eq h
    refine Finite.of_injective (fun (k : Key) (i : Fin 32) => k[i]) fun x y hxy => ?_
    exact Vector.ext fun i hi => congrFun hxy ⟨i, hi⟩
  exact not_injective_infinite_finite Config.hash256 fun p q hpq => by_contra fun hne => h p q hne hpq

/-- The key made of 32 numbers below 256. -/
def keyOfFins (x : Fin 32 → Fin 256) : Key := Vector.ofFn fun i => BitVec.ofFin (x i)

theorem keyOfFins_injective : Function.Injective keyOfFins := by
  intro x y h
  funext i
  have := congrArg (fun k : Key => k[i].toFin) h
  simpa [keyOfFins] using this

/-- Two keys seal the empty message under one nonce to the same `TAG_SIZE` bytes, for there are fewer tags than keys;
by `OPEN_SEAL` both open it, so `AUTH` fails for every scheme with the exact properties. -/
theorem not_auth : ¬ Auth := by
  intro h
  have hn : (List.replicate Config.nonceSize (0 : Byte)).length = Config.nonceSize := by simp
  let tag : (Fin 32 → Fin 256) → (Fin 16 → Fin 256) := fun x i =>
    ((Config.aead.encipher (keyOfFins x) (List.replicate Config.nonceSize 0) []).getD i 0).toFin
  obtain ⟨x, y, hxy, htag⟩ := Fintype.exists_ne_map_eq_of_card_lt tag (by simp)
  have hlen : ∀ k : Key, (Config.aead.encipher k (List.replicate Config.nonceSize 0) []).length = 16 := fun k => by
    simpa using Config.aead.seal_len k _ [] hn
  have heq : Config.aead.encipher (keyOfFins x) (List.replicate Config.nonceSize 0) [] =
      Config.aead.encipher (keyOfFins y) (List.replicate Config.nonceSize 0) [] := by
    refine List.ext_getElem (by rw [hlen, hlen]) fun i h1 h2 => ?_
    have h3 : i < 16 := by rw [hlen] at h1; exact h1
    have := congrFun htag ⟨i, h3⟩
    simp only [tag, List.getD_eq_getElem _ _ h1, List.getD_eq_getElem _ _ h2] at this
    exact BitVec.eq_of_toFin_eq this
  have hfail := (h (keyOfFins x) _ _ hn).2 (keyOfFins y) _ [] hn
    (.inl fun e => hxy (keyOfFins_injective e).symm) rfl
  rw [heq, Config.aead.open_seal _ _ _ hn] at hfail
  cases hfail

end Sys2Proof.Machine
end

