-- ==== Sys2Proof/Laws/Memory.lean ====
section
/-! SUPPORT. One store as data: read after write, and the canonical form (log 4). -/

namespace Sys2Proof.Machine

@[simp] theorem peek_nil (a : Nat) : Memory.peek [] a = none := rfl

@[simp] theorem peek_poke_self (m : Memory) (a : Nat) (v : Byte) : (m.poke a v).peek a = some v := by
  induction m with
  | nil => simp [Memory.poke, Memory.peek]
  | cons c m ih =>
    obtain ⟨x, w⟩ := c
    simp only [Memory.poke]
    split_ifs with h1 h2 <;> simp_all [Memory.peek]

theorem peek_poke_of_ne (m : Memory) {a b : Nat} (v : Byte) (h : b ≠ a) : (m.poke a v).peek b = m.peek b := by
  induction m with
  | nil => simp [Memory.poke, Memory.peek, h]
  | cons c m ih =>
    obtain ⟨x, w⟩ := c
    simp only [Memory.poke]
    split_ifs with h1 h2 <;> simp_all [Memory.peek]

theorem mem_poke {m : Memory} {a : Nat} {v : Byte} {c : Host.Cell} (h : c ∈ m.poke a v) :
    c = (a, v) ∨ c ∈ m := by
  induction m with
  | nil => simpa [Memory.poke] using h
  | cons d m ih =>
    obtain ⟨x, w⟩ := d
    simp only [Memory.poke] at h
    split_ifs at h with h1 h2
    · simpa using h
    · simp only [List.mem_cons] at h ⊢; tauto
    · simp only [List.mem_cons] at h ⊢; tauto

/-- A write keeps the canonical form. -/
theorem poke_wf {m : Memory} (a : Nat) (v : Byte) (h : m.wf) : (m.poke a v).wf := by
  induction m with
  | nil => simp [Memory.poke]
  | cons c m ih =>
    obtain ⟨x, w⟩ := c
    obtain ⟨hx, hm⟩ := List.pairwise_cons.1 h
    simp only [Memory.poke]
    split_ifs with h1 h2
    · refine List.pairwise_cons.2 ⟨fun d hd => ?_, h⟩
      rcases List.mem_cons.1 hd with rfl | hd
      · exact h1
      · exact h1.trans (hx d hd)
    · subst h2; exact List.pairwise_cons.2 ⟨hx, hm⟩
    · refine List.pairwise_cons.2 ⟨fun d hd => ?_, ih hm⟩
      rcases mem_poke hd with rfl | hd
      · show x < a; omega
      · exact hx d hd

/-- A write below the store's size lists nothing outside the store. -/
theorem poke_within {m : Memory} {a n : Nat} (v : Byte) (ha : a < n) (h : m.within n) : (m.poke a v).within n := by
  intro c hc
  rcases mem_poke hc with rfl | hc
  · exact ha
  · exact h c hc

theorem peek_of_lt_head {m : Memory} {a : Nat} (h : ∀ c ∈ m, a < c.1) : m.peek a = none := by
  induction m with
  | nil => rfl
  | cons c m ih =>
    obtain ⟨x, w⟩ := c
    have hx : a < x := h (x, w) (by simp)
    simp only [Memory.peek, if_neg (show ¬ a = x by omega)]
    exact ih fun c hc => h c (by simp [hc])

/-- In canonical form, equal contents are equal data. -/
theorem memory_ext {m n : Memory} (hm : m.wf) (hn : n.wf) (h : ∀ a, m.peek a = n.peek a) : m = n := by
  induction m generalizing n with
  | nil =>
    cases n with
    | nil => rfl
    | cons d n => have := h d.1; simp [Memory.peek] at this
  | cons c m ih =>
    obtain ⟨x, v⟩ := c
    obtain ⟨hx, hm⟩ := List.pairwise_cons.1 hm
    cases n with
    | nil => have := h x; simp [Memory.peek] at this
    | cons d n =>
      obtain ⟨y, w⟩ := d
      obtain ⟨hy, hn'⟩ := List.pairwise_cons.1 hn
      have hxy : x = y := by
        rcases lt_trichotomy x y with hlt | heq | hlt
        · have h1 := h x
          rw [peek_of_lt_head (m := (y, w) :: n) (a := x)] at h1
          · simp [Memory.peek] at h1
          · intro c hc
            rcases List.mem_cons.1 hc with rfl | hc
            · exact hlt
            · exact hlt.trans (hy c hc)
        · exact heq
        · have h1 := h y
          rw [peek_of_lt_head (m := (x, v) :: m) (a := y)] at h1
          · simp [Memory.peek] at h1
          · intro c hc
            rcases List.mem_cons.1 hc with rfl | hc
            · exact hlt
            · exact hlt.trans (hx c hc)
      subst hxy
      have hv : v = w := by have := h x; simpa [Memory.peek] using this
      subst hv
      congr 1
      refine ih hm hn' fun a => ?_
      by_cases ha : a = x
      · subst ha; rw [peek_of_lt_head hx, peek_of_lt_head hy]
      · have := h a; simpa [Memory.peek, ha] using this

end Sys2Proof.Machine
end

