-- ==== Sys2Proof/Laws/State.lean ====
section
/-! SUPPORT. The small lemmas of the state updates, true by rfl: what each field is after each update. -/

namespace Sys2Proof.Machine

variable (s : State)

/-! ## `setStatus` -/

@[simp] theorem setStatus_status (v : Word) : (s.setStatus v).status = v := rfl
@[simp] theorem setStatus_width (v : Word) : (s.setStatus v).width = s.width := rfl
@[simp] theorem setStatus_height (v : Word) : (s.setStatus v).height = s.height := rfl
@[simp] theorem setStatus_paylen (v : Word) : (s.setStatus v).paylen = s.paylen := rfl
@[simp] theorem setStatus_msglen (v : Word) : (s.setStatus v).msglen = s.msglen := rfl
@[simp] theorem setStatus_pwdlen (v : Word) : (s.setStatus v).pwdlen = s.pwdlen := rfl
@[simp] theorem setStatus_cur (v : Word) : (s.setStatus v).cur = s.cur := rfl
@[simp] theorem setStatus_src (v : Word) : (s.setStatus v).src = s.src := rfl
@[simp] theorem setStatus_dst (v : Word) : (s.setStatus v).dst = s.dst := rfl
@[simp] theorem setStatus_pay (v : Word) : (s.setStatus v).pay = s.pay := rfl
@[simp] theorem setStatus_msg (v : Word) : (s.setStatus v).msg = s.msg := rfl
@[simp] theorem setStatus_pwd (v : Word) : (s.setStatus v).pwd = s.pwd := rfl
@[simp] theorem setStatus_resets (v : Word) : (s.setStatus v).resets = s.resets := rfl
@[simp] theorem setStatus_draws (v : Word) : (s.setStatus v).draws = s.draws := rfl
@[simp] theorem setStatus_rngNext (v : Word) : (s.setStatus v).rngNext = s.rngNext := rfl
@[simp] theorem setStatus_hostRead (v : Word) : (s.setStatus v).hostRead = s.hostRead := rfl
@[simp] theorem setStatus_script (v : Word) : (s.setStatus v).script = s.script := rfl

/-! ## `setCur` -/

@[simp] theorem setCur_status (v : Nat) : (s.setCur v).status = s.status := rfl
@[simp] theorem setCur_width (v : Nat) : (s.setCur v).width = s.width := rfl
@[simp] theorem setCur_height (v : Nat) : (s.setCur v).height = s.height := rfl
@[simp] theorem setCur_paylen (v : Nat) : (s.setCur v).paylen = s.paylen := rfl
@[simp] theorem setCur_msglen (v : Nat) : (s.setCur v).msglen = s.msglen := rfl
@[simp] theorem setCur_pwdlen (v : Nat) : (s.setCur v).pwdlen = s.pwdlen := rfl
@[simp] theorem setCur_cur (v : Nat) : (s.setCur v).cur = BitVec.ofNat 32 v := rfl
@[simp] theorem setCur_src (v : Nat) : (s.setCur v).src = s.src := rfl
@[simp] theorem setCur_dst (v : Nat) : (s.setCur v).dst = s.dst := rfl
@[simp] theorem setCur_pay (v : Nat) : (s.setCur v).pay = s.pay := rfl
@[simp] theorem setCur_msg (v : Nat) : (s.setCur v).msg = s.msg := rfl
@[simp] theorem setCur_pwd (v : Nat) : (s.setCur v).pwd = s.pwd := rfl
@[simp] theorem setCur_resets (v : Nat) : (s.setCur v).resets = s.resets := rfl
@[simp] theorem setCur_draws (v : Nat) : (s.setCur v).draws = s.draws := rfl
@[simp] theorem setCur_rngNext (v : Nat) : (s.setCur v).rngNext = s.rngNext := rfl
@[simp] theorem setCur_hostRead (v : Nat) : (s.setCur v).hostRead = s.hostRead := rfl
@[simp] theorem setCur_script (v : Nat) : (s.setCur v).script = s.script := rfl

/-! ## `setPaylen` -/

@[simp] theorem setPaylen_status (v : Nat) : (s.setPaylen v).status = s.status := rfl
@[simp] theorem setPaylen_width (v : Nat) : (s.setPaylen v).width = s.width := rfl
@[simp] theorem setPaylen_height (v : Nat) : (s.setPaylen v).height = s.height := rfl
@[simp] theorem setPaylen_paylen (v : Nat) : (s.setPaylen v).paylen = BitVec.ofNat 32 v := rfl
@[simp] theorem setPaylen_msglen (v : Nat) : (s.setPaylen v).msglen = s.msglen := rfl
@[simp] theorem setPaylen_pwdlen (v : Nat) : (s.setPaylen v).pwdlen = s.pwdlen := rfl
@[simp] theorem setPaylen_cur (v : Nat) : (s.setPaylen v).cur = s.cur := rfl
@[simp] theorem setPaylen_src (v : Nat) : (s.setPaylen v).src = s.src := rfl
@[simp] theorem setPaylen_dst (v : Nat) : (s.setPaylen v).dst = s.dst := rfl
@[simp] theorem setPaylen_pay (v : Nat) : (s.setPaylen v).pay = s.pay := rfl
@[simp] theorem setPaylen_msg (v : Nat) : (s.setPaylen v).msg = s.msg := rfl
@[simp] theorem setPaylen_pwd (v : Nat) : (s.setPaylen v).pwd = s.pwd := rfl
@[simp] theorem setPaylen_resets (v : Nat) : (s.setPaylen v).resets = s.resets := rfl
@[simp] theorem setPaylen_draws (v : Nat) : (s.setPaylen v).draws = s.draws := rfl
@[simp] theorem setPaylen_rngNext (v : Nat) : (s.setPaylen v).rngNext = s.rngNext := rfl
@[simp] theorem setPaylen_hostRead (v : Nat) : (s.setPaylen v).hostRead = s.hostRead := rfl
@[simp] theorem setPaylen_script (v : Nat) : (s.setPaylen v).script = s.script := rfl

/-! ## `setMsglen` -/

@[simp] theorem setMsglen_status (v : Nat) : (s.setMsglen v).status = s.status := rfl
@[simp] theorem setMsglen_width (v : Nat) : (s.setMsglen v).width = s.width := rfl
@[simp] theorem setMsglen_height (v : Nat) : (s.setMsglen v).height = s.height := rfl
@[simp] theorem setMsglen_paylen (v : Nat) : (s.setMsglen v).paylen = s.paylen := rfl
@[simp] theorem setMsglen_msglen (v : Nat) : (s.setMsglen v).msglen = BitVec.ofNat 32 v := rfl
@[simp] theorem setMsglen_pwdlen (v : Nat) : (s.setMsglen v).pwdlen = s.pwdlen := rfl
@[simp] theorem setMsglen_cur (v : Nat) : (s.setMsglen v).cur = s.cur := rfl
@[simp] theorem setMsglen_src (v : Nat) : (s.setMsglen v).src = s.src := rfl
@[simp] theorem setMsglen_dst (v : Nat) : (s.setMsglen v).dst = s.dst := rfl
@[simp] theorem setMsglen_pay (v : Nat) : (s.setMsglen v).pay = s.pay := rfl
@[simp] theorem setMsglen_msg (v : Nat) : (s.setMsglen v).msg = s.msg := rfl
@[simp] theorem setMsglen_pwd (v : Nat) : (s.setMsglen v).pwd = s.pwd := rfl
@[simp] theorem setMsglen_resets (v : Nat) : (s.setMsglen v).resets = s.resets := rfl
@[simp] theorem setMsglen_draws (v : Nat) : (s.setMsglen v).draws = s.draws := rfl
@[simp] theorem setMsglen_rngNext (v : Nat) : (s.setMsglen v).rngNext = s.rngNext := rfl
@[simp] theorem setMsglen_hostRead (v : Nat) : (s.setMsglen v).hostRead = s.hostRead := rfl
@[simp] theorem setMsglen_script (v : Nat) : (s.setMsglen v).script = s.script := rfl

/-! ## `rngConsume` -/

@[simp] theorem rngConsume_status : (rngConsume s).status = s.status := rfl
@[simp] theorem rngConsume_width : (rngConsume s).width = s.width := rfl
@[simp] theorem rngConsume_height : (rngConsume s).height = s.height := rfl
@[simp] theorem rngConsume_paylen : (rngConsume s).paylen = s.paylen := rfl
@[simp] theorem rngConsume_msglen : (rngConsume s).msglen = s.msglen := rfl
@[simp] theorem rngConsume_pwdlen : (rngConsume s).pwdlen = s.pwdlen := rfl
@[simp] theorem rngConsume_cur : (rngConsume s).cur = s.cur := rfl
@[simp] theorem rngConsume_src : (rngConsume s).src = s.src := rfl
@[simp] theorem rngConsume_dst : (rngConsume s).dst = s.dst := rfl
@[simp] theorem rngConsume_pay : (rngConsume s).pay = s.pay := rfl
@[simp] theorem rngConsume_msg : (rngConsume s).msg = s.msg := rfl
@[simp] theorem rngConsume_pwd : (rngConsume s).pwd = s.pwd := rfl
@[simp] theorem rngConsume_resets : (rngConsume s).resets = s.resets := rfl
@[simp] theorem rngConsume_draws : (rngConsume s).draws = s.draws + 1 := rfl
@[simp] theorem rngConsume_rngNext : (rngConsume s).rngNext = none := rfl
@[simp] theorem rngConsume_hostRead : (rngConsume s).hostRead = s.hostRead := rfl
@[simp] theorem rngConsume_script : (rngConsume s).script = s.script := rfl

/-! ## `setMem` -/

@[simp] theorem setMem_status (σ : Store) (m : Memory) : (s.setMem σ m).status = s.status := by
  cases σ <;> rfl

@[simp] theorem setMem_width (σ : Store) (m : Memory) : (s.setMem σ m).width = s.width := by
  cases σ <;> rfl

@[simp] theorem setMem_height (σ : Store) (m : Memory) : (s.setMem σ m).height = s.height := by
  cases σ <;> rfl

@[simp] theorem setMem_paylen (σ : Store) (m : Memory) : (s.setMem σ m).paylen = s.paylen := by
  cases σ <;> rfl

@[simp] theorem setMem_msglen (σ : Store) (m : Memory) : (s.setMem σ m).msglen = s.msglen := by
  cases σ <;> rfl

@[simp] theorem setMem_pwdlen (σ : Store) (m : Memory) : (s.setMem σ m).pwdlen = s.pwdlen := by
  cases σ <;> rfl

@[simp] theorem setMem_cur (σ : Store) (m : Memory) : (s.setMem σ m).cur = s.cur := by
  cases σ <;> rfl

@[simp] theorem setMem_resets (σ : Store) (m : Memory) : (s.setMem σ m).resets = s.resets := by
  cases σ <;> rfl

@[simp] theorem setMem_draws (σ : Store) (m : Memory) : (s.setMem σ m).draws = s.draws := by
  cases σ <;> rfl

@[simp] theorem setMem_rngNext (σ : Store) (m : Memory) : (s.setMem σ m).rngNext = s.rngNext := by
  cases σ <;> rfl

@[simp] theorem setMem_hostRead (σ : Store) (m : Memory) : (s.setMem σ m).hostRead = s.hostRead := by
  cases σ <;> rfl

@[simp] theorem setMem_script (σ : Store) (m : Memory) : (s.setMem σ m).script = s.script := by
  cases σ <;> rfl

@[simp] theorem mem_setMem_self (σ : Store) (m : Memory) : (s.setMem σ m).mem σ = m := by
  cases σ <;> rfl

theorem mem_setMem_of_ne {σ τ : Store} (m : Memory) (h : τ ≠ σ) : (s.setMem σ m).mem τ = s.mem τ := by
  cases σ <;> cases τ <;> first | rfl | exact absurd rfl h

/-- A store is replaced by itself. -/
@[simp] theorem setMem_mem (σ : Store) : s.setMem σ (s.mem σ) = s := by
  cases σ <;> rfl

@[simp] theorem mem_setStatus (σ : Store) (v : Word) : (s.setStatus v).mem σ = s.mem σ := by
  cases σ <;> rfl

@[simp] theorem mem_setCur (σ : Store) (v : Nat) : (s.setCur v).mem σ = s.mem σ := by
  cases σ <;> rfl

@[simp] theorem mem_setPaylen (σ : Store) (v : Nat) : (s.setPaylen v).mem σ = s.mem σ := by
  cases σ <;> rfl

@[simp] theorem mem_setMsglen (σ : Store) (v : Nat) : (s.setMsglen v).mem σ = s.mem σ := by
  cases σ <;> rfl

@[simp] theorem mem_rngConsume (σ : Store) : (rngConsume s).mem σ = s.mem σ := by
  cases σ <;> rfl

/-! ## Two updates of one field, and updates that commute -/

@[simp] theorem setStatus_setStatus (v w : Word) : (s.setStatus v).setStatus w = s.setStatus w := rfl

@[simp] theorem setCur_setCur (v w : Nat) : (s.setCur v).setCur w = s.setCur w := rfl

@[simp] theorem setPaylen_setStatus (v : Nat) (w : Word) :
    (s.setStatus w).setPaylen v = (s.setPaylen v).setStatus w := rfl

@[simp] theorem setMsglen_setStatus (v : Nat) (w : Word) :
    (s.setStatus w).setMsglen v = (s.setMsglen v).setStatus w := rfl

@[simp] theorem setCur_setStatus (v : Nat) (w : Word) : (s.setStatus w).setCur v = (s.setCur v).setStatus w := rfl

@[simp] theorem rngConsume_setStatus (w : Word) : rngConsume (s.setStatus w) = (rngConsume s).setStatus w := rfl

@[simp] theorem setMem_setStatus (σ : Store) (m : Memory) (w : Word) :
    (s.setStatus w).setMem σ m = (s.setMem σ m).setStatus w := by
  cases σ <;> rfl

@[simp] theorem setMem_setCur (σ : Store) (m : Memory) (v : Nat) :
    (s.setCur v).setMem σ m = (s.setMem σ m).setCur v := by
  cases σ <;> rfl

end Sys2Proof.Machine
end

