-- ==== Sys2Proof/Laws/Ops.lean ====
section
/-! SUPPORT. One lemma per shared operation: what each store access, the scatter loop and the two ends of a command
can do. -/

namespace Sys2Proof.Machine

variable (s : State)

/-! ## Reading and writing one byte -/

theorem memRead_congr {s t : State} {σ : Store} (hm : t.mem σ = s.mem σ) (hr : t.resets = s.resets) (a : Nat) :
    memRead t σ a = memRead s σ a := by
  simp [memRead, hm, hr]

@[simp] theorem memRead_setStatus (v : Word) (σ : Store) (a : Nat) : memRead (s.setStatus v) σ a = memRead s σ a := by
  simp [memRead]

@[simp] theorem memRead_setCur (v : Nat) (σ : Store) (a : Nat) : memRead (s.setCur v) σ a = memRead s σ a := by
  simp [memRead]

@[simp] theorem memRead_setPaylen (v : Nat) (σ : Store) (a : Nat) : memRead (s.setPaylen v) σ a = memRead s σ a := by
  simp [memRead]

@[simp] theorem memRead_setMsglen (v : Nat) (σ : Store) (a : Nat) : memRead (s.setMsglen v) σ a = memRead s σ a := by
  simp [memRead]

@[simp] theorem memRead_rngConsume (σ : Store) (a : Nat) : memRead (rngConsume s) σ a = memRead s σ a := by
  simp [memRead]

/-- The byte just written is read. -/
@[simp] theorem memRead_memWrite_self (σ : Store) (a : Nat) (v : Byte) : memRead (memWrite s σ a v) σ a = v := by
  simp [memRead, memWrite]

/-- Every other byte of the store is left alone. -/
theorem memRead_memWrite_of_ne {σ : Store} {a b : Nat} (v : Byte) (h : b ≠ a) :
    memRead (memWrite s σ a v) σ b = memRead s σ b := by
  simp [memRead, memWrite, peek_poke_of_ne _ _ h]

/-- Every other store is left alone. -/
theorem memRead_memWrite_store {σ τ : Store} (a b : Nat) (v : Byte) (h : τ ≠ σ) :
    memRead (memWrite s σ a v) τ b = memRead s τ b := by
  simp [memRead, memWrite, mem_setMem_of_ne _ _ h]

/-- The three cases at once. -/
theorem memRead_memWrite (σ τ : Store) (a b : Nat) (v : Byte) :
    memRead (memWrite s σ a v) τ b = if τ = σ ∧ b = a then v else memRead s τ b := by
  by_cases h : τ = σ
  · subst h
    by_cases hb : b = a
    · subst hb; simp
    · simp [hb, memRead_memWrite_of_ne _ _ hb]
  · simp [h, memRead_memWrite_store _ _ _ _ h]

/-- A write changes one store and no register. -/
theorem memWrite_eq_setMem (σ : Store) (a : Nat) (v : Byte) :
    ∃ m, memWrite s σ a v = s.setMem σ m := ⟨_, rfl⟩

@[simp] theorem memWrite_setStatus (σ : Store) (a : Nat) (v : Byte) (w : Word) :
    memWrite (s.setStatus w) σ a v = (memWrite s σ a v).setStatus w := by
  simp [memWrite]

/-! ## Byte strings -/

@[simp] theorem length_readBytes (σ : Store) (a n : Nat) : (readBytes s σ a n).length = n := by
  simp [readBytes]

theorem getElem?_readBytes (σ : Store) {a n i : Nat} (h : i < n) :
    (readBytes s σ a n)[i]? = some (memRead s σ (a + i)) := by
  simp [readBytes, h]

@[simp] theorem getElem_readBytes (σ : Store) (a n i : Nat) (h : i < (readBytes s σ a n).length) :
    (readBytes s σ a n)[i] = memRead s σ (a + i) := by
  simp [readBytes]

theorem readBytes_congr {s t : State} {σ : Store} {a n : Nat}
    (h : ∀ i < n, memRead t σ (a + i) = memRead s σ (a + i)) : readBytes t σ a n = readBytes s σ a n := by
  simpa [readBytes] using h

/-- A byte string that a store holds byte by byte is what is read from it. -/
theorem readBytes_eq {s : State} {σ : Store} {a : Nat} {S : List Byte}
    (h : ∀ i, (hi : i < S.length) → memRead s σ (a + i) = S[i]) : readBytes s σ a S.length = S := by
  refine List.ext_getElem (by simp) fun i h1 h2 => ?_
  simpa using h i h2

/-- A string of writes changes one store and no register. -/
theorem writeBytes_eq_setMem (σ : Store) (S : List Byte) (a : Nat) :
    ∃ m, writeBytes s σ a S = s.setMem σ m := by
  induction S generalizing s a with
  | nil => exact ⟨s.mem σ, by simp [writeBytes]⟩
  | cons v S ih =>
    obtain ⟨m, hm⟩ := ih (memWrite s σ a v) (a + 1)
    refine ⟨m, ?_⟩
    rw [writeBytes, hm, memWrite]
    cases σ <;> rfl

/-- What a string of writes leaves in every store. -/
theorem memRead_writeBytes (σ τ : Store) (S : List Byte) (a b : Nat) :
    memRead (writeBytes s σ a S) τ b =
      if τ = σ ∧ a ≤ b ∧ b < a + S.length then S.getD (b - a) 0 else memRead s τ b := by
  induction S generalizing s a with
  | nil =>
    rw [if_neg (by simp)]; rfl
  | cons v S ih =>
    rw [writeBytes, ih, memRead_memWrite]
    by_cases h : τ = σ
    · subst h
      simp only [true_and, List.length_cons]
      rcases Nat.lt_trichotomy b a with hlt | heq | hlt
      · rw [if_neg (by omega), if_neg (by omega), if_neg (by omega)]
      · subst heq
        rw [if_neg (by omega), if_pos rfl, if_pos (by omega)]
        simp
      · obtain ⟨d, rfl⟩ : ∃ d, b = a + 1 + d := ⟨b - (a + 1), by omega⟩
        by_cases hd : d < S.length
        · rw [if_pos (by omega), if_pos (by omega),
            show a + 1 + d - (a + 1) = d by omega, show a + 1 + d - a = d + 1 by omega]
          simp
        · rw [if_neg (by omega), if_neg (by omega), if_neg (by omega)]
    · simp [h]

/-- What was written is read back. -/
@[simp] theorem readBytes_writeBytes (σ : Store) (S : List Byte) :
    readBytes (writeBytes s σ 0 S) σ 0 S.length = S := by
  refine readBytes_eq fun i hi => ?_
  rw [memRead_writeBytes, if_pos ⟨rfl, by omega, by omega⟩]
  simp [hi]

/-- Writes keep the canonical form and stay inside the store. -/
theorem writeBytes_wf {s : State} {σ : Store} (S : List Byte) (a : Nat) (h : (s.mem σ).wf) :
    ((writeBytes s σ a S).mem σ).wf := by
  induction S generalizing s a with
  | nil => exact h
  | cons v S ih => exact ih (a + 1) (by simpa [memWrite] using poke_wf a v h)

theorem writeBytes_within {s : State} {σ : Store} {n : Nat} (S : List Byte) (a : Nat) (hn : S ≠ [] → a + S.length ≤ n)
    (h : (s.mem σ).within n) : ((writeBytes s σ a S).mem σ).within n := by
  induction S generalizing s a with
  | nil => exact h
  | cons v S ih =>
    have hlen := hn (by simp)
    simp only [List.length_cons] at hlen
    refine ih (a + 1) (fun _ => by omega) ?_
    simpa [memWrite] using poke_within v (by omega) h

/-! ## The scatter loop -/

theorem embedSlots_eq_setMem (B : List Byte) (n : Nat) :
    ∃ m v, embedSlots B n s = ((s.setMem .dst m).setCur v) := by
  induction n generalizing s with
  | zero => exact ⟨s.mem .dst, s.cur.toNat, by simp [embedSlots, State.setCur]⟩
  | succ n ih =>
    obtain ⟨m, v, h⟩ := ih (embedSlot B s)
    exact ⟨m, v, by rw [embedSlots, h]; rfl⟩

theorem slotAddr_eq (k : Nat) : slotAddr k = 4 * (k / 3) + k % 3 := rfl

/-- `SlotAddr` is injective (R162). -/
theorem slotAddr_inj {j k : Nat} (h : slotAddr j = slotAddr k) : j = k := by
  simp only [slotAddr_eq] at h; omega

/-- Every channel byte that is not alpha is one slot's, and no alpha byte is (R105). -/
theorem slotAddr_eq_iff (k i : Nat) : slotAddr k = i ↔ i % 4 ≤ 2 ∧ 3 * (i / 4) + i % 4 = k := by
  simp only [slotAddr_eq]; omega

/-- What the scatter loop does, from any cursor (R162): `CUR` advances by `n`, the slots it passes carry the frame's
bits over the source's upper bits, every other byte is left alone. -/
theorem embedSlots_spec (B : List Byte) (n : Nat) (hcur : s.cur.toNat + n < 4294967296) :
    (embedSlots B n s).cur.toNat = s.cur.toNat + n ∧
    ∀ τ i, memRead (embedSlots B n s) τ i =
      if τ = .dst ∧ i % 4 ≤ 2 ∧ s.cur.toNat ≤ 3 * (i / 4) + i % 4 ∧ 3 * (i / 4) + i % 4 < s.cur.toNat + n then
        setLsb (memRead s .src i) (bit B (3 * (i / 4) + i % 4))
      else memRead s τ i := by
  induction n generalizing s with
  | zero => exact ⟨rfl, fun τ i => by rw [if_neg (by omega)]; rfl⟩
  | succ n ih =>
    have hc : (embedSlot B s).cur.toNat = s.cur.toNat + 1 := by
      simp [embedSlot, Nat.mod_eq_of_lt (show s.cur.toNat + 1 < 4294967296 by omega)]
    have hr : ∀ τ i, memRead (embedSlot B s) τ i = if τ = .dst ∧ i = slotAddr s.cur.toNat then
        setLsb (memRead s .src (slotAddr s.cur.toNat)) (bit B s.cur.toNat) else memRead s τ i := by
      intro τ i; simp [embedSlot, memRead_memWrite]
    obtain ⟨h1, h2⟩ := ih (embedSlot B s) (by omega)
    refine ⟨by rw [embedSlots, h1, hc]; omega, fun τ i => ?_⟩
    rw [embedSlots, h2, hc, hr .src, hr τ]
    simp only [eq_comm (a := i), slotAddr_eq_iff]
    by_cases hτ : τ = .dst
    · subst hτ
      simp only [true_and, reduceCtorEq, false_and, if_false]
      by_cases hch : i % 4 ≤ 2
      · rcases Nat.lt_trichotomy (3 * (i / 4) + i % 4) s.cur.toNat with hlt | heq | hlt
        · rw [if_neg (by omega), if_neg (by omega), if_neg (by omega)]
        · rw [if_neg (by omega), if_pos ⟨hch, heq⟩, if_pos (by omega), (slotAddr_eq_iff _ _).2 ⟨hch, heq⟩, heq]
        · by_cases hup : 3 * (i / 4) + i % 4 < s.cur.toNat + 1 + n
          · rw [if_pos (by omega), if_pos (by omega)]
          · rw [if_neg (by omega), if_neg (by omega), if_neg (by omega)]
      · rw [if_neg (by omega), if_neg (by omega), if_neg (by omega)]
    · simp [hτ]

/-! ## The start and the ends of a command -/

/-- The line that fixes an answer of the asked length names that answer (R98, R135). -/
@[simp] theorem answer_ofAnswer {n : Nat} (r : RngAnswer n) : (RngLine.ofAnswer r).answer n = some r := by
  cases r with
  | fail => rfl
  | bytes b => simp [RngLine.ofAnswer, RngLine.answer, Vector.toList]

theorem finish_eq : finish s = s.setStatus 0x002 := rfl

theorem raise_capacity_eq : raise .capacity false s = s.setStatus 0x012 := rfl

theorem raise_encryption_eq : raise .encryption false s = s.setStatus 0x022 := rfl

theorem raise_decryption_eq : raise .decryption false s = s.setStatus 0x032 := rfl

theorem raise_decryption_short_eq : raise .decryption true s = s.setStatus 0x132 := rfl

theorem illegalCommand_eq : illegalCommand s = s.setStatus 0x042 := rfl

theorem startCommand_eq : startCommand s = s.setStatus 0x001 := rfl

@[simp] theorem busy_setStatus (v : Word) : (s.setStatus v).busy = v.getLsbD 0 := rfl

@[simp] theorem err_setStatus (v : Word) : (s.setStatus v).err = v.extractLsb' 4 3 := rfl

/-- A launch answers a next state exactly when its premise holds. -/
theorem launch_eq_next {premise : Option Refusal} {body : State → State} {s t : State} :
    launch premise body s = .next t ↔ premise = none ∧ t = body (startCommand s) := by
  cases premise <;> simp [launch, eq_comm]

/-- A launch never faults. -/
theorem launch_ne_fault {premise : Option Refusal} {body : State → State} {s : State} {f : Fault} :
    launch premise body s ≠ .fault f := by
  cases premise <;> simp [launch]

end Sys2Proof.Machine
end

