-- ==== Sys2Proof/Laws/Commands.lean ====
section
/-! SUPPORT. What each command can do, said once: the start of a command leaves no trace but in `STATUS`, which its end
overwrites, so each command is its launch premise and then one of a few updates of the state before it. All of it holds
in every configuration `c`. -/

namespace Sys2Proof.Machine

variable (c : Params) (s : State)

/-! ## Writing `STATUS` commutes with everything a command does -/

@[simp] theorem pixelCount_setStatus (w : Word) : pixelCount (s.setStatus w) = pixelCount s := rfl

@[simp] theorem pixelCount_setCur (v : Nat) : pixelCount (s.setCur v) = pixelCount s := rfl

@[simp] theorem readBytes_setStatus (w : Word) (σ : Store) (a n : Nat) :
    readBytes (s.setStatus w) σ a n = readBytes s σ a n := by
  simp [readBytes]

@[simp] theorem readBytes_setCur (v : Nat) (σ : Store) (a n : Nat) :
    readBytes (s.setCur v) σ a n = readBytes s σ a n := by
  simp [readBytes]

@[simp] theorem readBytes_rngConsume (σ : Store) (a n : Nat) :
    readBytes (rngConsume s) σ a n = readBytes s σ a n := by
  simp [readBytes]

@[simp] theorem payload_setStatus (w : Word) : payload (s.setStatus w) = payload s := by simp [payload]

@[simp] theorem message_setStatus (w : Word) : message (s.setStatus w) = message s := by simp [message]

@[simp] theorem password_setStatus (w : Word) : password (s.setStatus w) = password s := by simp [password]

@[simp] theorem payload_setCur (v : Nat) : payload (s.setCur v) = payload s := by simp [payload]

@[simp] theorem length_payload : (payload s).length = s.paylen.toNat := by simp [payload]

@[simp] theorem length_message : (message s).length = s.msglen.toNat := by simp [message]

@[simp] theorem length_password : (password s).length = s.pwdlen.toNat := by simp [password]

@[simp] theorem emptyPassword_setStatus (w : Word) : emptyPassword (s.setStatus w) = emptyPassword s := rfl

@[simp] theorem rngNextAnswer_setStatus (w : Word) : rngNextAnswer c (s.setStatus w) = rngNextAnswer c s := rfl

@[simp] theorem slotBit_setStatus (w : Word) (k : Nat) : slotBit (s.setStatus w) k = slotBit s k := by simp [slotBit]

@[simp] theorem slotBit_setCur (v k : Nat) : slotBit (s.setCur v) k = slotBit s k := by simp [slotBit]

@[simp] theorem gatherByte_setStatus (w : Word) (k : Nat) : gatherByte (s.setStatus w) k = gatherByte s k := by
  simp [gatherByte]

@[simp] theorem gatherByte_setCur (v k : Nat) : gatherByte (s.setCur v) k = gatherByte s k := by simp [gatherByte]

@[simp] theorem gatherHeader_setStatus (w : Word) : gatherHeader (s.setStatus w) = gatherHeader s := by
  simp [gatherHeader]

@[simp] theorem gatherHeader_setCur (v : Nat) : gatherHeader (s.setCur v) = gatherHeader s := by simp [gatherHeader]

@[simp] theorem gatherPayload_setStatus (w : Word) (m : Nat) :
    gatherPayload (s.setStatus w) m = gatherPayload s m := by
  simp [gatherPayload]

@[simp] theorem gatherPayload_setCur (v m : Nat) : gatherPayload (s.setCur v) m = gatherPayload s m := by
  simp [gatherPayload]

@[simp] theorem length_gatherHeader : (gatherHeader s).length = 8 := by simp [gatherHeader]

@[simp] theorem length_gatherPayload (m : Nat) : (gatherPayload s m).length = m := by simp [gatherPayload]

@[simp] theorem length_hdr (L : Nat) : (hdr L).length = 8 := by simp [hdr]

@[simp] theorem length_frame (P : List Byte) : (frame P).length = 8 + P.length := by simp [frame]

@[simp] theorem writeBytes_setStatus (w : Word) (σ : Store) (a : Nat) (S : List Byte) :
    writeBytes (s.setStatus w) σ a S = (writeBytes s σ a S).setStatus w := by
  induction S generalizing s a with
  | nil => rfl
  | cons v S ih => simp [writeBytes, ih]

@[simp] theorem writeBytes_setCur (c : Nat) (σ : Store) (a : Nat) (S : List Byte) :
    writeBytes (s.setCur c) σ a S = (writeBytes s σ a S).setCur c := by
  induction S generalizing s a with
  | nil => rfl
  | cons v S ih => simp [writeBytes, memWrite, ih]

@[simp] theorem embedSlots_setStatus (w : Word) (B : List Byte) (n : Nat) :
    embedSlots B n (s.setStatus w) = (embedSlots B n s).setStatus w := by
  induction n generalizing s with
  | zero => rfl
  | succ n ih =>
    have h : embedSlot B (s.setStatus w) = (embedSlot B s).setStatus w := by simp [embedSlot]
    rw [embedSlots, h, ih]; rfl

@[simp] theorem copyImage_setStatus (w : Word) : copyImage (s.setStatus w) = (copyImage s).setStatus w := by
  simp [copyImage]

@[simp] theorem copyImage_setCur (v : Nat) : copyImage (s.setCur v) = (copyImage s).setCur v := by
  simp [copyImage]

/-! ## The four commands -/

/-- `Fits` is the two tests of `EMBED`. -/
theorem fits_iff (L N : Nat) : fits L N = true ↔ L < 100000000 ∧ 8 * (8 + L) ≤ 3 * N := by
  simp [fits, frameBits, slots, Nat.blt_eq]

/-- The next state of `EMBED` (R161). -/
def embedNext : State :=
  if fits s.paylen.toNat (pixelCount s) then
    ((embedSlots (frame (payload s)) (frameBits s.paylen.toNat) ((copyImage s).setCur 0)).setStatus 0x002)
  else (s.setCur 0).setStatus 0x012

theorem embedWith_eq : embedWith c s =
    match embedPremise c s with
    | some r => .refused r
    | none => .next (embedNext s) := by
  have h : embedPseudocode (startCommand s) = embedNext s := by
    by_cases hf : fits s.paylen.toNat (pixelCount s) = true
    · obtain ⟨h1, h2⟩ := (fits_iff _ _).1 hf
      have h1 : ¬ 100000000 ≤ s.paylen.toNat := by omega
      have h2 : ¬ slots (pixelCount s) < frameBits s.paylen.toNat := by simp [slots, frameBits]; omega
      simp [embedPseudocode, startCommand_eq, embedNext, hf, h1, h2, finish_eq]
    · have h1 : 100000000 ≤ s.paylen.toNat ∨ slots (pixelCount s) < frameBits s.paylen.toNat := by
        rw [fits_iff] at hf; simp [slots, frameBits]; omega
      rcases h1 with h1 | h1 <;>
        simp [embedPseudocode, startCommand_eq, embedNext, hf, h1, raise_capacity_eq]
  rw [embedWith]; cases hEmbed : embedPremise c s <;> simp [launch, h]

/-- The number of bytes `EXTRACT` returns for the gathered header, when it writes a payload (R165): the header's value,
present, in `1 .. 1,000,000` and no longer than the image; or the whole bytes the image has, under `PARTIAL`. -/
def headerClaim : Option Nat :=
  match c.hdrParse (gatherHeader s) with
  | none => none
  | some m =>
    if m ≤ 0 ∨ m > Config.extractMax then none
    else if Config.headerBits + 8 * m > slots (pixelCount s) then
      match c.extractOverrun with
      | .emptyPayload => none
      | .partialPayload => some ((slots (pixelCount s) - Config.headerBits) / 8)
    else some m.toNat

/-- `EXTRACT` never claims more than `EXTRACT_MAX` bytes, nor more than the image has. -/
theorem headerClaim_le {m : Nat} (h0 : 64 ≤ 3 * pixelCount s) (h : headerClaim c s = some m) :
    m ≤ 1000000 ∧ 64 + 8 * m ≤ 3 * pixelCount s := by
  unfold headerClaim slots at h
  cases hp : c.hdrParse (gatherHeader s) with
  | none => simp [hp] at h
  | some v =>
    by_cases h1 : v ≤ 0 ∨ 1000000 < v
    · simp [hp, h1] at h
    · by_cases h2 : (3 * pixelCount s : Int) < 64 + 8 * v
      · cases ho : c.extractOverrun <;> simp [hp, h1, h2, ho] at h
        omega
      · simp [hp, h1, h2] at h
        omega

/-- The next state of `EXTRACT` (R165). -/
def extractNext : State :=
  if slots (pixelCount s) < Config.headerBits then ((s.setCur 0).setPaylen 0).setStatus 0x002
  else
    match headerClaim c s with
    | none => ((s.setCur 64).setPaylen 0).setStatus 0x002
    | some m => (((writeBytes s .pay 0 (gatherPayload s m)).setCur (64 + 8 * m)).setPaylen m).setStatus 0x002

theorem extractWith_eq : extractWith c s =
    match extractPremise c s with
    | some r => .refused r
    | none => .next (extractNext c s) := by
  have h : extractPseudocode c (startCommand s) = extractNext c s := by
    by_cases h0 : slots (pixelCount s) < 64
    · simp [extractPseudocode, startCommand_eq, extractNext, h0, extractNothing, finish_eq]
    · cases hp : c.hdrParse (gatherHeader s) with
      | none => simp [extractPseudocode, startCommand_eq, extractNext, headerClaim, h0, hp, extractNothing, finish_eq]
      | some m =>
        by_cases h1 : m ≤ 0 ∨ 1000000 < m
        · simp [extractPseudocode, startCommand_eq, extractNext, headerClaim, h0, hp, h1, extractNothing, finish_eq]
        · by_cases h2 : (slots (pixelCount s) : Int) < 64 + 8 * m
          · cases ho : c.extractOverrun <;>
              simp [extractPseudocode, startCommand_eq, extractNext, headerClaim, h0, hp, h1, h2, ho, extractOverrun,
                extractNothing, extractPayload, finish_eq]
          · simp [extractPseudocode, startCommand_eq, extractNext, headerClaim, h0, hp, h1, h2, extractPayload,
              finish_eq]
  rw [extractWith]; cases hExtract : extractPremise c s <;> simp [launch, h]

/-- The next state of `ENCRYPT` (R136). -/
def encryptNext : State :=
  if emptyPassword s then ((writeBytes s .pay 0 (message s)).setPaylen s.msglen.toNat).setStatus 0x002
  else
    match rngNextAnswer c s with
    | .fail => (rngConsume s).setStatus 0x022
    | .bytes nonce =>
      ((writeBytes (rngConsume s) .pay 0 (sealRecord c (password s) nonce.toList (message s))).setPaylen
        (recordLen c s.msglen.toNat)).setStatus 0x002

/-- The record's length (R108, R138). -/
@[simp] theorem length_sealRecord (pwd msg : List Byte) (nonce : Vector Byte c.nonceSize) :
    (sealRecord c pwd nonce.toList msg).length = recordLen c msg.length := by
  have h := c.aead.seal_len (keyOf c pwd) nonce.toList msg (by simp)
  simp only [sealRecord, List.length_append, h, Vector.length_toList, recordLen]
  omega

theorem encryptWith_eq : encryptWith c s =
    match encryptPremise c s with
    | some r => .refused r
    | none => .next (encryptNext c s) := by
  have h : encryptPseudocode c (startCommand s) = encryptNext c s := by
    cases he : emptyPassword s
    · cases hr : rngNextAnswer c s <;>
        simp [encryptPseudocode, startCommand_eq, encryptNext, he, hr, deliverPayload, finish_eq, raise_encryption_eq]
    · simp [encryptPseudocode, startCommand_eq, encryptNext, he, deliverPayload, finish_eq]
  rw [encryptWith]; cases hEncrypt : encryptPremise c s <;> simp [launch, h]

/-- The next state of `DECRYPT` (R137). -/
def decryptNext : State :=
  if emptyPassword s then ((writeBytes s .msg 0 (payload s)).setMsglen s.paylen.toNat).setStatus 0x002
  else if s.paylen.toNat < c.nonceSize then s.setStatus 0x132
  else
    match openRecord c (password s) (payload s) with
    | none => s.setStatus 0x032
    | some p => ((writeBytes s .msg 0 p).setMsglen p.length).setStatus 0x002

/-- The length of an opened record (R133, R138). -/
theorem length_openRecord {pwd record p : List Byte} (h : openRecord c pwd record = some p) :
    p.length + c.tagSize = record.length - c.nonceSize := by
  simpa using c.aead.open_len _ _ _ _ h

/-- A sealed record opens to its message under its own password (R134 `OPEN_SEAL`). -/
@[simp] theorem openRecord_sealRecord (pwd msg : List Byte) (nonce : Vector Byte c.nonceSize) :
    openRecord c pwd (sealRecord c pwd nonce.toList msg) = some msg := by
  have hn : nonce.toList.length = c.nonceSize := by simp
  rw [openRecord, sealRecord, List.take_left' hn, List.drop_left' hn]
  exact c.aead.open_seal _ _ _ hn

theorem decryptWith_eq : decryptWith c s =
    match decryptPremise c s with
    | some r => .refused r
    | none => .next (decryptNext c s) := by
  have h : decryptPseudocode c (startCommand s) = decryptNext c s := by
    cases he : emptyPassword s
    · by_cases hl : s.paylen.toNat < c.nonceSize
      · simp [decryptPseudocode, startCommand_eq, decryptNext, he, hl, raise_decryption_short_eq]
      · cases ho : openRecord c (password s) (payload s) <;>
          simp [decryptPseudocode, startCommand_eq, decryptNext, he, hl, ho, deliverMessage, finish_eq,
            raise_decryption_eq]
    · simp [decryptPseudocode, startCommand_eq, decryptNext, he, deliverMessage, finish_eq]
  rw [decryptWith]; cases hDecrypt : decryptPremise c s <;> simp [launch, h]

/-- The launch premise of a command. -/
def premise : Instr → Option Refusal
  | .embed => embedPremise c s
  | .extract => extractPremise c s
  | .encrypt => encryptPremise c s
  | .decrypt => decryptPremise c s

/-- The next state of a command whose premise holds. -/
def nextState : Instr → State
  | .embed => embedNext s
  | .extract => extractNext c s
  | .encrypt => encryptNext c s
  | .decrypt => decryptNext c s

/-- A command is refused when its premise fails and else answers its next state; it never faults. -/
theorem execWith_eq (i : Instr) : execWith c i s =
    match premise c s i with
    | some r => .refused r
    | none => .next (nextState c s i) := by
  cases i
  · exact embedWith_eq c s
  · exact extractWith_eq c s
  · exact encryptWith_eq c s
  · exact decryptWith_eq c s

/-- The one inversion of a command that completes. -/
theorem execWith_next {i : Instr} {s t : State} (h : execWith c i s = .next t) :
    premise c s i = none ∧ t = nextState c s i := by
  rw [execWith_eq] at h
  cases hp : premise c s i <;> simp [hp] at h
  exact ⟨rfl, h.symm⟩

/-- `exec` is the commands of the reference configuration. -/
theorem execWith_reference : execWith Config.reference = exec := by
  funext i s
  cases i <;> rfl

theorem exec_eq (i : Instr) : exec i s =
    match premise Config.reference s i with
    | some r => .refused r
    | none => .next (nextState Config.reference s i) := by
  rw [← execWith_reference, execWith_eq]

theorem exec_next {i : Instr} {s t : State} (h : exec i s = .next t) :
    premise Config.reference s i = none ∧ t = nextState Config.reference s i :=
  execWith_next _ (by rwa [execWith_reference])

end Sys2Proof.Machine
end

