-- ==== Sys2Proof/Laws/Formats.lean ====
section
/-! SUPPORT. One lemma per data format and per image operation: the bits of a packed byte, of the
least-significant-bit write and of a frame, and the bytes of the copied and of the embedded image. -/

namespace Sys2Proof.Machine

variable (s : State)

theorem packed_bits : ∀ b0 b1 b2 b3 b4 b5 b6 b7 : Bool, ∀ t < 8,
    (packByte fun t => [b0, b1, b2, b3, b4, b5, b6, b7].getD t false).getLsbD (7 - t) =
      [b0, b1, b2, b3, b4, b5, b6, b7].getD t false := by
  decide +kernel

/-- The first bit packed is the most significant (R104). -/
theorem packByte_getLsbD (b : Nat → Bool) {t : Nat} (ht : t < 8) : (packByte b).getLsbD (7 - t) = b t := by
  refine Eq.trans (packed_bits (b 0) (b 1) (b 2) (b 3) (b 4) (b 5) (b 6) (b 7) t ht) ?_
  interval_cases t <;> rfl

/-- Bytes with the same eight bits, most significant first, are equal. -/
theorem byte_ext {x y : Byte} (h : ∀ t < 8, x.getLsbD (7 - t) = y.getLsbD (7 - t)) : x = y := by
  refine BitVec.eq_of_getLsbD_eq fun i hi => ?_
  have := h (7 - i) (by omega)
  rwa [show 7 - (7 - i) = i by omega] at this

/-- The least-significant-bit write puts the bit in bit 0 (R66). -/
@[simp] theorem setLsb_getLsbD_zero (old : Byte) (b : Bool) : (setLsb old b).getLsbD 0 = b := by
  cases b <;> simp [setLsb]

/-- The eight digits of the header, written out (R101). -/
theorem hdr_eq (L : Nat) :
    hdr L = [0, 1, 2, 3, 4, 5, 6, 7].map fun i => BitVec.ofNat 8 (0x30 + L / 10 ^ (7 - i) % 10) := rfl

/-- The header bits of a frame are the header's. -/
theorem bit_frame_header (P : List Byte) {k : Nat} (h : k < 64) : bit (frame P) k = bit (hdr P.length) k := by
  rw [bit, bit, frame, List.getD_append _ _ _ _ (by simp; omega)]

/-- The payload bits of a frame are the payload's, 64 slots on. -/
theorem bit_frame_payload (P : List Byte) (k : Nat) : bit (frame P) (64 + k) = bit P k := by
  rw [bit, bit, frame, List.getD_append_right _ _ _ _ (by simp; omega)]
  simp only [length_hdr]
  rw [show (64 + k) / 8 - 8 = k / 8 by omega, show (64 + k) % 8 = k % 8 by omega]

/-- The copied image (R161 step 4). -/
theorem memRead_copyImage (τ : Store) (i : Nat) : memRead (copyImage s) τ i =
    if τ = .dst ∧ i < 4 * pixelCount s then memRead s .src i else memRead s τ i := by
  rw [copyImage, memRead_writeBytes]
  simp only [length_readBytes, Nat.zero_le, true_and, Nat.zero_add, Nat.sub_zero, Config.channels]
  split
  · next h =>
    rw [List.getD_eq_getElem _ _ (by simpa using h.2)]; simp
  · rfl

/-- The embedded image: the closed form of R161. -/
theorem memRead_embedSlots_copyImage (B : List Byte) {T : Nat} (hT : T < 4294967296) (τ : Store) (i : Nat) :
    memRead (embedSlots B T ((copyImage s).setCur 0)) τ i =
      if τ = .dst ∧ i % 4 ≤ 2 ∧ 3 * (i / 4) + i % 4 < T then
        setLsb (memRead s .src i) (bit B (3 * (i / 4) + i % 4))
      else if τ = .dst ∧ i < 4 * pixelCount s then memRead s .src i else memRead s τ i := by
  have h := (embedSlots_spec ((copyImage s).setCur 0) B T (by simpa using hT)).2 τ i
  simpa [memRead_copyImage] using h

end Sys2Proof.Machine
end

