-- ==== Sys2Proof/Laws/HostPort.lean ====
section
/-! SUPPORT. What a host action can do, said once, for every configuration `c` and every meaning `run` of the commands. -/

namespace Sys2Proof.Machine

variable {c : Params} {run : Instr → State → Result State} {s t : State}

/-- A command issue runs the decoded command or raises `ILLEGAL_CMD`. -/
theorem issue_next {w : Word} (h : issue run w s = .next t) :
    (∃ i, decode w = .ok i ∧ run i s = .next t) ∨ (∃ r, decode w = .error r) ∧ t = s.setStatus 0x042 := by
  unfold issue at h
  cases hd : decode w with
  | ok i => exact .inl ⟨i, rfl, by simpa [hd] using h⟩
  | error r => exact .inr ⟨⟨r, rfl⟩, by simpa [hd, illegalCommand_eq, eq_comm] using h⟩

/-- A register write of an idle block issues a command or sets an operand register. -/
theorem regWrite_next {n : Nat} {v : Word} (h : regWrite run n v s = .next t) :
    s.busy = false ∧ (n = 0 ∧ issue run v s = .next t ∨ n ≠ 0 ∧ t = setReg s n v) := by
  unfold regWrite at h
  cases hb : s.busy
  · by_cases hn : n = 0
    · exact ⟨rfl, .inl ⟨hn, by simpa [hb, hn] using h⟩⟩
    · exact ⟨rfl, .inr ⟨hn, by simpa [hb, hn, eq_comm] using h⟩⟩
  · simp [hb] at h

/-- A register read changes only what the host has read. -/
theorem regRead_next {n : Nat} {how : Word → HostDatum} (h : regRead n how s = .next t) :
    t = { s with hostRead := some (how (regValue s n)) } := by
  unfold regRead at h
  split at h
  · cases h
  · cases h; rfl

/-- A store access happens on an idle block, inside the stores. -/
theorem storeAccess_next {reach : List (Store × Nat)} {access : State → State}
    (h : storeAccess c reach access s = .next t) :
    s.busy = false ∧ (∀ p ∈ reach, p.2 ≤ c.storeSize p.1) ∧ t = access s := by
  unfold storeAccess at h
  cases hb : s.busy
  · cases hf : reach.find? (fun p => decide (c.storeSize p.1 < p.2)) with
    | none =>
      refine ⟨rfl, fun p hp => ?_, by simpa [hb, hf, eq_comm] using h⟩
      simpa using List.find?_eq_none.1 hf p hp
    | some p => simp [hb, hf] at h
  · simp [hb] at h

/-- The seven things a host action that completes can do. -/
inductive HostEffect (c : Params) (run : Instr → State → Result State) (s t : State) : Prop where
  | command (w : Word) (idle : s.busy = false) (done : issue run w s = .next t)
  | register (n : Nat) (v : Word) (idle : s.busy = false) (eq : t = setReg s n v)
  | read (d : HostDatum) (eq : t = { s with hostRead := some d })
  | store (σ : Store) (a : Nat) (S : List Byte) (idle : s.busy = false)
      (inside : S ≠ [] → a + S.length ≤ c.storeSize σ) (eq : t = writeBytes s σ a S)
  | entropy (line : RngLine) (eq : t = { s with rngNext := some line })
  | nothing (eq : t = s)
  | reset (eq : t = resetEvent s)

theorem regWrite_effect {n : Nat} {v : Word} (h : regWrite run n v s = .next t) : HostEffect c run s t := by
  obtain ⟨hb, ⟨-, h⟩ | ⟨-, h⟩⟩ := regWrite_next h
  · exact .command v hb h
  · exact .register n v hb h

/-- The one inversion of a host action that completes. -/
theorem hostActWith_next {a : HostAction} (h : hostActWith c run a s = .next t) : HostEffect c run s t := by
  cases a with
  | regWrite n v => exact regWrite_effect h
  | regRead n => exact .read _ (regRead_next h)
  | busWrite offset data =>
    simp only [hostActWith, busWrite] at h
    split at h
    · exact regWrite_effect h
    · cases h
  | busRead offset width =>
    simp only [hostActWith, busRead] at h
    split at h
    · exact .read _ (regRead_next h)
    · cases h
  | storeRead σ a =>
    simp only [hostActWith, storeRead] at h
    exact .read _ (storeAccess_next h).2.2
  | fill σ offset data =>
    simp only [hostActWith, fill] at h
    obtain ⟨hb, hr, rfl⟩ := storeAccess_next h
    refine .store σ offset data hb (fun hne => ?_) rfl
    simpa [List.length_eq_zero_iff, hne] using hr
  | copy target source n =>
    simp only [hostActWith, copy] at h
    obtain ⟨hb, hr, rfl⟩ := storeAccess_next h
    exact .store target 0 _ hb (fun _ => by simpa using hr (target, n) (by simp)) rfl
  | rng line => exact .entropy line (by simpa [hostActWith, eq_comm] using h)
  | commandIfNone w =>
    simp only [hostActWith, commandIfNone] at h
    split at h
    · cases h
    · split at h
      · exact regWrite_effect h
      · exact .nothing (by simpa [eq_comm] using h)
  | reset => exact .reset (by simpa [hostActWith, eq_comm] using h)

/-- What happens next is the host's first outstanding action, or nothing. -/
theorem nextActionWith_next (h : nextActionWith c run s = .next t) :
    (s.script = [] ∧ t = s) ∨ ∃ a rest, s.script = a :: rest ∧ HostEffect c run { s with script := rest } t := by
  unfold nextActionWith at h
  cases hs : s.script with
  | nil => exact .inl ⟨rfl, by simpa [hs, eq_comm] using h⟩
  | cons a rest => exact .inr ⟨a, rest, rfl, hostActWith_next (by simpa [hs] using h)⟩

/-- The one inversion of a host action of the reference configuration. -/
theorem hostAct_next {a : HostAction} (h : hostAct a s = .next t) : HostEffect Config.reference exec s t :=
  hostActWith_next h

/-- The one inversion of a step. -/
theorem step_next (h : step s = .next t) : (s.script = [] ∧ t = s) ∨
    ∃ a rest, s.script = a :: rest ∧ HostEffect Config.reference exec { s with script := rest } t :=
  nextActionWith_next h

/-- `step` is the step of the reference configuration. -/
theorem stepWith_reference : stepWith Config.reference = step := by
  funext s
  rw [stepWith, execWith_reference]; rfl

/-- Actions in order are the actions before and then the actions after. -/
theorem runActions_append (as bs : List HostAction) (s : State) :
    runActions (as ++ bs) s = match runActions as s with
      | .next s' => runActions bs s'
      | .fault r => .fault r
      | .refused r => .refused r := by
  induction as generalizing s with
  | nil => rfl
  | cons a as ih =>
    simp only [List.cons_append, runActions]
    cases hostAct a s <;> simp [ih]

end Sys2Proof.Machine
end

