-- ==== Sys2Proof/Laws/PerInstr.lean ====
section
/-! SUPPORT. The per-instruction family `Encoding`: a command's fields are well formed, its word is the word of its
fields, and the decoder reads it back (spec/30_encoding.md R90, R92). -/

namespace Sys2Proof.Laws.Encoding

/-- What the family says of one command. -/
def Statement (i : Instr) : Prop :=
  i.wellFormed = true ∧ encode i = i.fields.word ∧ FormatC.ofWord (encode i) = i.fields ∧ decode (encode i) = .ok i

theorem embed : Statement .embed := by unfold Statement; decide

theorem extract : Statement .extract := by unfold Statement; decide

theorem encrypt : Statement .encrypt := by unfold Statement; decide

theorem decrypt : Statement .decrypt := by unfold Statement; decide

end Sys2Proof.Laws.Encoding
end

