-- ==== Sys2Proof/Tests/Slice0.lean ====
section
/-! SUPPORT. Tests on small states. Expected values come from spec/95_test_vectors.md and from the encodings of
spec/30_encoding.md, never from the model. -/

namespace Sys2Proof.Tests

set_option Elab.async false

open Sys2Proof.Machine

/-! ## Helpers -/

/-- A store holding the bytes from index 0. -/
def cells (S : List Byte) : Memory := S.zipIdx.map fun p => (p.2, p.1)

/-- The test image `G(N)` of 95_test_vectors. -/
def gImage (N : Nat) : List Byte :=
  (List.range N).flatMap fun p =>
    [BitVec.ofNat 8 p, BitVec.ofNat 8 (0x80 + p), BitVec.ofNat 8 (0xFF - p % 256), 0xFF]

/-- An idle block with an image `N` pixels wide and one high, and a payload. -/
def codecState (N : Nat) (image P : List Byte) : State :=
  { State.reset with
    width := BitVec.ofNat 32 N, height := 1, src := cells image
    paylen := BitVec.ofNat 32 P.length, pay := cells P }

/-- An idle block with a message, a payload and a password. -/
def cipherState (msg P pwd : List Byte) : State :=
  { State.reset with
    msg := cells msg, msglen := BitVec.ofNat 32 msg.length
    pay := cells P, paylen := BitVec.ofNat 32 P.length
    pwd := cells pwd, pwdlen := BitVec.ofNat 32 pwd.length }

/-- The outcome is a next state that passes the check. -/
def nextIs (r : Result State) (p : State → Bool) : Bool :=
  match r with
  | .next t => p t
  | _ => false

/-- The outcome is this refusal. -/
def refusedAs (r : Result State) (why : Refusal) : Bool :=
  match r with
  | .refused w => w == why
  | _ => false

/-- The outcome is this fault. -/
def faultAs (r : Result State) (why : Fault) : Bool :=
  match r with
  | .fault w => w == why
  | _ => false

/-! ## WellFormed: an ill-formed term for each check -/

/-- Bit 4 set beside `EMBED`'s `OPC`: V-CMD-3. -/
theorem test_wellFormed_refuses_zero_field : (FormatC.mk 1 1).wellFormed = false := by decide

/-- `OPC = 0` (R93). -/
theorem test_wellFormed_refuses_opc_0 : (FormatC.mk 0 0).wellFormed = false := by decide

/-- `OPC = 5` (R93). -/
theorem test_wellFormed_refuses_opc_5 : (FormatC.mk 0 5).wellFormed = false := by decide

/-- Also the witness of DecodeOfEncodeIsTheCommand: each command is well formed. -/
theorem test_wellFormed_accepts_commands :
    [Instr.embed, .extract, .encrypt, .decrypt].all Instr.wellFormed = true := by decide

/-! ## Decoding: words written out bit by bit from R90 and R92 -/

/-- Pixel Codec family: `EMBED`, bits 31:4 zero, `OPC = 0001`. -/
theorem test_decode_embed : decode 0b00000000000000000000000000000001 = .ok .embed := by decide

theorem test_decode_extract : decode 0b00000000000000000000000000000010 = .ok .extract := by decide

/-- Cipher Layer family: `ENCRYPT`, bits 31:4 zero, `OPC = 0011`. -/
theorem test_decode_encrypt : decode 0b00000000000000000000000000000011 = .ok .encrypt := by decide

theorem test_decode_decrypt : decode 0b00000000000000000000000000000100 = .ok .decrypt := by decide

/-- V-CMD-1 to V-CMD-5. -/
theorem test_decode_illegal :
    [0x00000000, 0x00000005, 0x00000011, 0xFFFFFFFF, 0x80000002].all
      (fun w => match decode w with | .ok _ => false | .error _ => true) = true := by decide

/-- The word lies least significant byte first (R61). -/
theorem test_decode_bytes : decodeBytes [0x03, 0, 0, 0, 0x55] = .ok (.encrypt, [0x55]) := by decide

theorem test_decode_truncated : decodeBytes [0x03, 0, 0] = .error .truncated := by decide

/-! ## Header and bit functions -/

/-- V-HDR-1. -/
theorem test_hdr :
    hdr 2 = [0x30, 0x30, 0x30, 0x30, 0x30, 0x30, 0x30, 0x32] ∧
    hdr 65536 = [0x30, 0x30, 0x30, 0x36, 0x35, 0x35, 0x33, 0x36] ∧
    hdr 12345678 = [0x31, 0x32, 0x33, 0x34, 0x35, 0x36, 0x37, 0x38] ∧
    hdr 99999999 = [0x39, 0x39, 0x39, 0x39, 0x39, 0x39, 0x39, 0x39] := by decide

/-- V-HDR-2, the rows with a value. -/
theorem test_hdrParse_some :
    hdrParse [0x30, 0x30, 0x30, 0x30, 0x30, 0x30, 0x30, 0x32] = some 2 ∧
    hdrParse [0x30, 0x31, 0x30, 0x30, 0x30, 0x30, 0x30, 0x31] = some 1000001 ∧
    hdrParse [0x39, 0x39, 0x39, 0x39, 0x39, 0x39, 0x39, 0x39] = some 99999999 := by decide

/-- V-HDR-2, the rows with `none`. -/
theorem test_hdrParse_none :
    hdrParse [0x2b, 0x30, 0x30, 0x30, 0x30, 0x30, 0x30, 0x31] = none ∧
    hdrParse [0x20, 0x30, 0x30, 0x30, 0x30, 0x30, 0x30, 0x31] = none ∧
    hdrParse [0x30, 0x30, 0x30, 0x30, 0x30, 0x30, 0x31, 0x00] = none ∧
    hdrParse [0xff, 0xff, 0xff, 0xff, 0xff, 0xff, 0xff, 0xff] = none := by decide

/-- V-BIT-1. -/
theorem test_bit : (List.range 16).map (bit [0x68, 0x69]) =
    [false, true, true, false, true, false, false, false, false, true, true, false, true, false, false, true] := by
  decide

/-- V-BIT-2. -/
theorem test_slotAddr : [0, 1, 2, 3, 4, 5, 62, 63, 64, 79, 80, 299].map slotAddr =
    [0, 1, 2, 4, 5, 6, 82, 84, 85, 105, 106, 398] := by decide

/-! ## EMBED -/

/-- V-EMB-3: one byte `a5` into `G(24)`, an exact fit. -/
theorem test_embed_exact_fit :
    nextIs (exec .embed (codecState 24 (gImage 24) [0xa5])) (fun t =>
      t.status == 0x002 && t.cur == 72 && readBytes t .dst 0 96 ==
        [0x00, 0x80, 0xff, 0xff, 0x01, 0x80, 0xfe, 0xff, 0x02, 0x82, 0xfc, 0xff, 0x02, 0x83, 0xfd, 0xff,
         0x04, 0x84, 0xfa, 0xff, 0x04, 0x84, 0xfa, 0xff, 0x07, 0x87, 0xf8, 0xff, 0x06, 0x86, 0xf8, 0xff,
         0x08, 0x88, 0xf7, 0xff, 0x09, 0x88, 0xf6, 0xff, 0x0a, 0x8a, 0xf4, 0xff, 0x0a, 0x8b, 0xf5, 0xff,
         0x0c, 0x8c, 0xf2, 0xff, 0x0c, 0x8c, 0xf2, 0xff, 0x0f, 0x8f, 0xf0, 0xff, 0x0e, 0x8e, 0xf0, 0xff,
         0x10, 0x90, 0xef, 0xff, 0x11, 0x90, 0xee, 0xff, 0x12, 0x92, 0xec, 0xff, 0x12, 0x93, 0xed, 0xff,
         0x14, 0x94, 0xea, 0xff, 0x15, 0x95, 0xea, 0xff, 0x17, 0x96, 0xe8, 0xff, 0x17, 0x96, 0xe9, 0xff]) = true := by
  decide +kernel

/-- V-CAP-5 with program P3's marker: the frame is one byte too long, `DST` keeps its bytes. -/
theorem test_embed_too_long :
    nextIs (exec .embed { codecState 24 (gImage 24) [0xa5, 0x5a] with dst := cells (List.replicate 96 0xee) })
      (fun t => t.status == 0x012 && t.cur == 0 && t.dst == cells (List.replicate 96 0xee)) = true := by
  decide +kernel

/-! ## EXTRACT -/

/-- V-EXT-8: slots hold `"00000001"` then `5a`. -/
theorem test_extract_one_byte :
    nextIs (exec .extract
      (codecState 30 ((List.range 120).map fun i => if i % 4 = 3 then 0x80 else
        if bit [0x30, 0x30, 0x30, 0x30, 0x30, 0x30, 0x30, 0x31, 0x5a] (3 * (i / 4) + i % 4) then 0x81 else 0x80) []))
      (fun t => t.status == 0x002 && t.paylen == 1 && t.cur == 72 && t.pay == [(0, 0x5a)]) = true := by
  decide +kernel

/-- V-EXT-4: 21 pixels have no room for a header; nothing is written. -/
theorem test_extract_small_image :
    nextIs (exec .extract (codecState 21 [] [0x11])) (fun t =>
      t.status == 0x002 && t.paylen == 0 && t.cur == 0 && t.pay == [(0, 0x11)]) = true := by decide +kernel

/-! ## ENCRYPT -/

/-- V-CIP-6: the bypass makes no draw. -/
theorem test_encrypt_bypass :
    nextIs (exec .encrypt { cipherState [0x68, 0x69] [] [] with rngNext := some .fail }) (fun t =>
      t.status == 0x002 && t.paylen == 2 && t.pay == [(0, 0x68), (1, 0x69)] && t.draws == 0 &&
        t.rngNext == some .fail) = true := by decide +kernel

/-- V-CIP-4: the entropy source fails; `PAY` and `PAYLEN` keep their values. -/
theorem test_encrypt_entropy_failure :
    nextIs (exec .encrypt { cipherState [0x68, 0x69] [0x11] [0x70, 0x77] with rngNext := some .fail }) (fun t =>
      t.status == 0x022 && t.paylen == 1 && t.pay == [(0, 0x11)] && t.draws == 1) = true := by decide +kernel

/-! ## DECRYPT -/

/-- V-CIP-5, last row: the empty password accepts anything. -/
theorem test_decrypt_bypass :
    nextIs (exec .decrypt (cipherState [] [0xff, 0xfe] [])) (fun t =>
      t.status == 0x002 && t.msglen == 2 && t.msg == [(0, 0xff), (1, 0xfe)]) = true := by decide +kernel

/-- V-CIP-5, `PAYLEN = 11`: "ciphertext too short"; `MSG` and `MSGLEN` keep their values. -/
theorem test_decrypt_short :
    nextIs (exec .decrypt (cipherState [0x11] (List.replicate 11 0) [0x70, 0x77])) (fun t =>
      t.status == 0x132 && t.msglen == 1 && t.msg == [(0, 0x11)]) = true := by decide +kernel

/-! ## Issue, registers, reset -/

/-- V-CMD-3: the low bits say `EMBED`, bit 4 is set. -/
theorem test_illegal_word :
    nextIs (step { State.reset with cur := 9, script := [.regWrite 0 0x00000011] }) (fun t =>
      t.status == 0x042 && t.cur == 9) = true := by decide +kernel

/-- Program P5: `EMBED` straight after reset. -/
theorem test_embed_after_reset :
    nextIs (step (State.reset.withFetchWord 32 1)) (fun t => t.status == 0x012 && t.cur == 0) = true := by
  decide +kernel

/-- V-CMD-8: `CUR` is read only. -/
theorem test_cur_read_only :
    nextIs (step { State.reset with cur := 7, script := [.regWrite 7 5] }) (fun t => t.cur == 7) = true := by
  decide +kernel

/-- V-CMD-6: `CMD` reads 0. -/
theorem test_cmd_reads_zero :
    nextIs (step { State.reset with script := [.regRead 0] }) (fun t => t.hostRead == some (.reg 0)) = true := by
  decide +kernel

/-- R61: a register on the bus is little-endian. -/
theorem test_bus_write_little_endian :
    nextIs (step { State.reset with script := [.busWrite 8 [0x0a, 0, 0, 0x01]] }) (fun t =>
      t.width == 0x0100000a) = true := by decide +kernel

/-- R273: a narrow bus access is refused. -/
theorem test_bus_narrow_refused :
    refusedAs (step { State.reset with script := [.busRead 8 2] }) .busAccessForm = true := by decide +kernel

/-- R272: more pixels than `MAX_PIXELS`. -/
theorem test_too_many_pixels :
    refusedAs (exec .extract { State.reset with width := 65536, height := 65536 }) .pixelsOverCapacity = true := by
  decide +kernel

/-- R73: a host write beyond `PAY`. -/
theorem test_fill_outside :
    faultAs (step { State.reset with script := [.fill .pay 4294967294 [1, 2]] })
      (.storeIndexOutOfRange .pay 4294967295) = true := by decide +kernel

/-! ## Another configuration (R6) -/

/-- Small stores, `EXTRACT_OVERRUN = PARTIAL`, and a header parser of one's own. -/
def smallParams (parser : List Byte → Option Int) : Params :=
  { Config.reference with
    hdrParse := parser, extractOverrun := .partialPayload
    maxPixels := 30, maxPixels_le := by decide, payCap := 1000000, payCap_le := by decide
    extractMax_le_payCap := by decide, msgCap := 3, msgCap_le := by decide, pwdCap := 2, pwdCap_le := by decide }

/-- V-EXT-5 under `PARTIAL` (D13): `(90 - 64) div 8 = 3` bytes of the five, `CUR = 64 + 8 * 3` (R27). -/
theorem test_extract_partial :
    nextIs (execWith (smallParams hdrParse) .extract
      (codecState 30 ((List.range 120).map fun i => if i % 4 = 3 then 0x80 else
        if bit [0x30, 0x30, 0x30, 0x30, 0x30, 0x30, 0x30, 0x35, 0x5a, 0xa5, 0x11, 0xff] (3 * (i / 4) + i % 4) then 0x81
        else 0x80) []))
      (fun t => t.status == 0x002 && t.paylen == 3 && t.cur == 88 && t.pay == [(0, 0x5a), (1, 0xa5), (2, 0x11)])
      = true := by decide +kernel

/-- A parser that answers a negative number: the empty payload (R165, `m <= 0`). -/
theorem test_extract_negative :
    nextIs (execWith (smallParams fun _ => some (-1)) .extract (codecState 30 (gImage 30) [0x11]))
      (fun t => t.status == 0x002 && t.paylen == 0 && t.cur == 64 && t.pay == [(0, 0x11)]) = true := by decide +kernel

/-- R272 with `MSG_CAP = 3` and `MAX_PIXELS = 30`: one byte and one pixel too many. -/
theorem test_small_capacities :
    refusedAs (execWith (smallParams hdrParse) .encrypt (cipherState [1, 2, 3, 4] [] [])) .messageOverCapacity &&
    refusedAs (execWith (smallParams hdrParse) .decrypt (cipherState [] [1, 2, 3, 4] [])) .resultOverCapacity &&
    refusedAs (execWith (smallParams hdrParse) .extract (codecState 31 [] [])) .pixelsOverCapacity &&
    nextIs (execWith (smallParams hdrParse) .decrypt (cipherState [] [1, 2, 3] [])) (fun t => t.msglen == 3) = true := by
  decide +kernel

/-- An `RNG` line of another length than `NONCE_SIZE` fixes nothing (R135). -/
theorem test_rng_length :
    (RngLine.bytes [1, 2, 3]).answer Config.nonceSize = none ∧
    (RngLine.bytes [1, 2, 3]).answer 3 = some (.bytes #v[1, 2, 3]) := by decide +kernel

/-! ## Pipelines and slot steps -/

/-- Program P1's shape on 24 pixels, run by the machine: `ENCODE`, `COPY`, `DECODE` without a password. -/
theorem test_pipeline_round_trip :
    nextIs (Host.Core.run core 7 { State.reset with
        width := 24, height := 1, src := cells (gImage 24), msg := [(0, 0x68)], msglen := 1
        script := encodeSequence ++ [reloadImage 24, .fill .msg 0 [0], .regWrite 5 0] ++ decodeSequence })
      (fun t => t.status == 0x002 && t.msglen == 1 && t.cur == 72 && t.msg == [(0, 0x68)]) = true := by
  decide +kernel

/-- R167 on V-EXT-8: one slot at a time, the same end. -/
theorem test_extract_by_slots :
    (extractBySlots Config.reference (codecState 30 ((List.range 120).map fun i => if i % 4 = 3 then 0x80 else
        if bit [0x30, 0x30, 0x30, 0x30, 0x30, 0x30, 0x30, 0x31, 0x5a] (3 * (i / 4) + i % 4) then 0x81 else 0x80) [])).pay
      = [(0, 0x5a)] := by decide +kernel

/-! ## Witnesses: for each obligation with hypotheses, a state and operands that meet them

A theorem `witness_<what>` names the obligations it serves. -/

theorem exists_of_nextIs {r : Result State} {p : State → Bool} (h : nextIs r p = true) :
    ∃ t, r = .next t ∧ p t = true := by
  cases r with
  | next t => exact ⟨t, rfl, h⟩
  | fault _ => cases h
  | refused _ => cases h

/-- The image of V-EXT-8's form: the slots of `N` pixels spell the bytes. -/
def slotImage (N : Nat) (F : List Byte) : List Byte :=
  (List.range (4 * N)).map fun i =>
    if i % 4 = 3 then 0x80 else if bit F (3 * (i / 4) + i % 4) then 0x81 else 0x80

/-- `EMBED`'s exact fit, V-CAP-4. -/
def fitState : State := codecState 24 (gImage 24) [0xa5]

/-- `EMBED` one byte too long, V-CAP-5. -/
def longState : State := codecState 24 (gImage 24) [0xa5, 0x5a]

/-- `ENCRYPT` with a password and a fixed draw. -/
def drawState (answer : RngAnswer Config.nonceSize) : State :=
  { cipherState [0x68, 0x69] [0x11] [0x70, 0x77] with rngNext := some (.ofAnswer answer) }

/-- The draw of V-CIP-1. -/
def draw : Vector Byte Config.nonceSize := #v[0, 1, 2, 3, 4, 5, 6, 7, 8, 9, 10, 11]

/-- StepRunsTheDecodedCommand: the three clauses. -/
theorem witness_step :
    (State.reset.withFetchWord 32 4).idle ∧ (State.reset.withFetchWord 32 4).script = [.regWrite 0 0x00000004] ∧
    decode 0x00000004 = .ok .decrypt ∧ decodeBytes [0x04, 0, 0, 0] = .ok (.decrypt, []) ∧
    ({ State.reset with script := [.busWrite 0 [0x04, 0, 0, 0]] } : State).idle ∧
    State.reset.script = [] := by decide

/-- IllegalWordChangesStatusOnly: the words next to the four. -/
theorem witness_illegal : State.reset.idle ∧
    0x00000000 ∉ ([0x00000001, 0x00000002, 0x00000003, 0x00000004] : List Word) ∧
    0x00000005 ∉ ([0x00000001, 0x00000002, 0x00000003, 0x00000004] : List Word) ∧
    0x80000001 ∉ ([0x00000001, 0x00000002, 0x00000003, 0x00000004] : List Word) := by decide

/-- RegReadReturnsTheRegister: the first and the last register, with `CUR` not 0. -/
theorem witness_regRead : ({ State.reset with cur := 80 } : State).idle ∧
    ((0, 0) ∈ ([(0, 0), (7, 80)] : List (Nat × Word)) ∧ (7, 80) ∈ ([(0, 0), (7, 80)] : List (Nat × Word))) := by
  decide

/-- RegWriteSetsOneOperandRegister: both ends of the operand registers and both read-only ones. -/
theorem witness_regWrite : State.reset.idle ∧ (2 ≤ 2 ∧ 2 ≤ 6) ∧ (2 ≤ 6 ∧ 6 ≤ 6) ∧ (1 = 1 ∨ 1 = 7) ∧ (7 = 1 ∨ 7 = 7) :=
  by decide

/-- ReservedRegistersReadZeroAndIgnoreWrites: the first reserved number. -/
theorem witness_reserved : State.reset.idle ∧ 8 ≤ 8 := by decide

/-- BusyBlockRefusesTheHost: registers 0, 2 and 7, not 1; no step reaches such a state (log 2). -/
theorem witness_busy : ({ State.reset with status := 0x001 } : State).busy = true ∧ 2 ≠ 0 ∧ 0 ≠ 1 ∧ 2 ≠ 1 ∧ 7 ≠ 1 := by decide

/-- BusWindowTakesAlignedWordsOnly: too narrow, too wide, misaligned. -/
theorem witness_busWindow : State.reset.idle ∧ ([0, 0, 0] : List Byte).length ≠ 4 ∧
    ([0, 0, 0, 0, 0] : List Byte).length ≠ 4 ∧ (2 % 4 ≠ 0) ∧ (3 ≠ 4) := by decide

/-- ReservedStatusBitsStayZero: a bit next to a field, and a step that changes `STATUS`. -/
theorem witness_statusBits : 2 ∉ [0, 1, 4, 5, 6, 8] ∧ 7 ∉ [0, 1, 4, 5, 6, 8] ∧
    ∃ t, step (State.reset.withFetchWord 32 1) = .next t ∧ t.status ≠ (State.reset.withFetchWord 32 1).status := by
  refine ⟨by decide, by decide, ?_⟩
  obtain ⟨t, h, ht⟩ := exists_of_nextIs test_embed_after_reset
  refine ⟨t, h, ?_⟩
  simp only [Bool.and_eq_true, beq_iff_eq] at ht
  rw [ht.1]; decide

/-- FillWritesItsBytes and CopyAndRngDoWhatTheirLinesSay: up to the end of `PAY` and one byte past it. -/
theorem witness_fill : State.reset.idle ∧ 4294967294 + ([1] : List Byte).length ≤ Config.reference.storeSize .pay ∧
    ([1, 2] : List Byte) ≠ [] ∧ Config.reference.storeSize .pay < 4294967294 + ([1, 2] : List Byte).length ∧
    4294967295 ≤ Config.reference.storeSize .pay ∧ Config.reference.storeSize .pay < 4294967296 := by decide +kernel

/-- StoreReadHasNoSideEffect: the last byte of `SRC` and the first index past it. -/
theorem witness_storeRead : State.reset.idle ∧ 17179869179 < Config.reference.storeSize .src ∧
    Config.reference.storeSize .src ≤ 17179869180 := by decide +kernel

/-- ResetEventFromEveryState: from a busy block. -/
theorem witness_resetEvent :
    ({ State.reset with status := 0x001, cur := 5, script := [.reset] } : State).script = [.reset] := by decide

/-- CommandsStraightAfterReset; also ResetMeetsTheInvariant's state. -/
theorem witness_afterReset : State.reset.width = 0 ∧ State.reset.height = 0 ∧ State.reset.paylen = 0 ∧
    State.reset.msglen = 0 ∧ State.reset.pwdlen = 0 ∧ State.reset.cur = 0 := by decide

/-- HeaderIsEightDecimalDigits and HeaderParsesBack: both ends. -/
theorem witness_header : 0 ≤ 99999999 ∧ 99999999 ≤ 99999999 ∧ 99999999 < 100000000 := by decide

/-- HeaderParserTakesDigitsOnly: the digits next to the bounds, and the bytes next to the digits. -/
theorem witness_headerParser :
    (∀ i, i < 8 → 0x30 ≤ (([0x30, 0x39, 0x30, 0x39, 0x30, 0x39, 0x30, 0x39] : List Byte).getD i 0).toNat ∧
      (([0x30, 0x39, 0x30, 0x39, 0x30, 0x39, 0x30, 0x39] : List Byte).getD i 0).toNat ≤ 0x39) ∧
    (∃ i, i < 8 ∧ ¬ (0x30 ≤ (([0x2f, 0x30, 0x30, 0x30, 0x30, 0x30, 0x30, 0x30] : List Byte).getD i 0).toNat ∧
      (([0x2f, 0x30, 0x30, 0x30, 0x30, 0x30, 0x30, 0x30] : List Byte).getD i 0).toNat ≤ 0x39)) ∧
    (∃ i, i < 8 ∧ ¬ (0x30 ≤ (([0x30, 0x30, 0x30, 0x30, 0x30, 0x30, 0x30, 0x3a] : List Byte).getD i 0).toNat ∧
      (([0x30, 0x30, 0x30, 0x30, 0x30, 0x30, 0x30, 0x3a] : List Byte).getD i 0).toNat ≤ 0x39)) := by
  refine ⟨by decide, ⟨0, by decide⟩, ⟨7, by decide⟩⟩

/-- GatherByteInvertsBit: the last byte of a two-byte string spelled in the slots. -/
theorem witness_gather : 1 < ([0x68, 0x69] : List Byte).length ∧
    ∀ t, t < 8 → slotBit (codecState 6 (slotImage 6 [0x68, 0x69]) []) (8 * 1 + t) = bit [0x68, 0x69] (8 * 1 + t) := by
  decide +kernel

/-- SlotsAreTheColourBytes: the last blue byte of two pixels. -/
theorem witness_slots : 6 < 4 * 2 ∧ 6 % 4 ≠ 3 := by decide

/-- EmbedSucceedsExactlyWithinCapacity, EmbedScattersTheFrame, ExtractGathersThePayload, ExtractIsItsSlotSteps: the
largest image, V-CAP-7's. -/
theorem witness_largestImage :
    pixelCount { State.reset with width := 65535, height := 65537 } ≤ Config.maxPixels ∧
    ({ State.reset with width := 65535, height := 65537 } : State).paylen.toNat ≤ Config.payCap := by decide +kernel

/-- EmbedScattersTheFrame: too long for the header (V-CAP-7), too long for the image (V-CAP-5), the exact fit
(V-CAP-4). -/
theorem witness_embedScatters :
    ({ State.reset with width := 65535, height := 65537, paylen := 100000000 } : State).paylen.toNat ≥ 100000000 ∧
    8 * (8 + longState.paylen.toNat) > 3 * pixelCount longState ∧
    ¬ (fitState.paylen.toNat ≥ 100000000 ∨ 8 * (8 + fitState.paylen.toNat) > 3 * pixelCount fitState) := by
  decide +kernel

/-- EmbedFrame, UntouchedPixelsAreCopies, EmbedChangesExactlyTheDisagreeingSlots, ResultCodesOfEachCommand,
CommandsWriteOnlyTheirRow, NoCommandReadsDst, OnlyEncryptDraws: an `EMBED` that succeeds. -/
theorem witness_embed : ∃ t, exec .embed fitState = .next t ∧ t.status = 0x002 := by
  obtain ⟨t, h, ht⟩ := exists_of_nextIs (p := fun t => t.status == 0x002)
    (show nextIs (exec .embed fitState) _ = true by decide +kernel)
  exact ⟨t, h, by simpa using ht⟩

/-- EmbedFrame, NoPartialResults: an `EMBED` that raises. -/
theorem witness_embedRaises : ∃ t, exec .embed longState = .next t ∧ t.status = 0x012 ∧ t.err ≠ 0 := by
  obtain ⟨t, h, ht⟩ := exists_of_nextIs (p := fun t => t.status == 0x012 && t.err != 0)
    (show nextIs (exec .embed longState) _ = true by decide +kernel)
  exact ⟨t, h, by simpa using ht⟩

/-- EmbedIsItsSlotSteps: the exact fit. -/
theorem witness_embedSlots : pixelCount fitState ≤ Config.maxPixels ∧
    fits fitState.paylen.toNat (pixelCount fitState) = true := by decide +kernel

/-- EmbedIsAFunctionOfItsRow: two states that differ in `MSG`, `CUR`, `STATUS` and `DST`. -/
theorem witness_embedFunction :
    let s' := { fitState with msg := [(0, 1)], cur := 9, status := 0x042, dst := [(0, 7)] }
    s' ≠ fitState ∧ s'.width = fitState.width ∧ s'.height = fitState.height ∧ s'.paylen = fitState.paylen ∧
    (∀ i, i < 4 * pixelCount fitState → memRead s' .src i = memRead fitState .src i) ∧
    (∀ i, i < fitState.paylen.toNat → memRead s' .pay i = memRead fitState .pay i) ∧
    ∃ t, exec .embed fitState = .next t := by
  refine ⟨by decide +kernel, rfl, rfl, rfl, fun _ _ => rfl, fun _ _ => rfl, ?_⟩
  exact witness_embed.imp fun _ h => h.1

/-- ExtractGathersThePayload: no room (V-EXT-4), not digits (V-EXT-9), `m = 0`, `m = 10^6 + 1` (V-EXT-6), more than the
image has (V-EXT-5), one byte (V-EXT-8). -/
theorem witness_extractGathers :
    3 * pixelCount (codecState 21 [] []) < 64 ∧
    hdrParse (gatherHeader (codecState 30 (slotImage 30 [0x2b, 0x30, 0x30, 0x30, 0x30, 0x30, 0x30, 0x31, 0x5a]) []))
      = none ∧
    hdrParse (gatherHeader (codecState 22 (slotImage 22 [0x30, 0x30, 0x30, 0x30, 0x30, 0x30, 0x30, 0x30]) []))
      = some 0 ∧
    hdrParse (gatherHeader (codecState 22 (slotImage 22 [0x30, 0x31, 0x30, 0x30, 0x30, 0x30, 0x30, 0x31]) []))
      = some 1000001 ∧
    hdrParse (gatherHeader (codecState 30 (slotImage 30 [0x30, 0x30, 0x30, 0x30, 0x30, 0x30, 0x30, 0x35]) []))
      = some 5 ∧ (64 + 8 * 5 > 3 * 30) ∧
    hdrParse (gatherHeader (codecState 30 (slotImage 30 [0x30, 0x30, 0x30, 0x30, 0x30, 0x30, 0x30, 0x31, 0x5a]) []))
      = some 1 ∧ ¬ (64 + 8 * 1 > 3 * 30) := by decide +kernel

/-- ExtractFrame, WhatIsNotAnError, RecordLengths' and the general statements' `EXTRACT`: it returns a byte. -/
theorem witness_extract : ∃ t, exec .extract
    (codecState 30 (slotImage 30 [0x30, 0x30, 0x30, 0x30, 0x30, 0x30, 0x30, 0x31, 0x5a]) []) = .next t ∧
      t.paylen = 1 := by
  obtain ⟨t, h, ht⟩ := exists_of_nextIs (p := fun t => t.paylen == 1)
    (show nextIs (exec .extract
      (codecState 30 (slotImage 30 [0x30, 0x30, 0x30, 0x30, 0x30, 0x30, 0x30, 0x31, 0x5a]) [])) _ = true by
      decide +kernel)
  exact ⟨t, h, by simpa using ht⟩

/-- ExtractReadsOnlySlotBits: the image of 30 by 1 pixels and of 5 by 6 with other high bits and alpha. -/
theorem witness_extractBits :
    let F : List Byte := [0x30, 0x30, 0x30, 0x30, 0x30, 0x30, 0x30, 0x31, 0x5a]
    let s := codecState 30 (slotImage 30 F) []
    let s' := { codecState 30 ((slotImage 30 F).map (· ^^^ 0x7e)) [1, 2] with width := 5, height := 6 }
    s' ≠ s ∧ pixelCount s' = pixelCount s ∧ (∀ k, k < 3 * pixelCount s → slotBit s' k = slotBit s k) := by
  decide +kernel

/-- EmbedThenExtractReturnsThePayload: the exact fit, the image described as 12 by 2. -/
theorem witness_roundTrip : fitState.idle ∧ pixelCount fitState ≤ Config.maxPixels ∧
    8 * fitState.paylen.toNat + 64 ≤ 3 * pixelCount fitState ∧ fitState.paylen.toNat ≤ 1000000 ∧
    (12 : Word).toNat * (2 : Word).toNat = pixelCount fitState ∧ ([1, 2] : List Byte).length ≤ Config.payCap := by
  decide +kernel

/-- EncryptWritesTheRecord: the empty password, a draw that fails, a draw that succeeds. -/
theorem witness_encrypt :
    ((cipherState [0x68] [] []).msglen.toNat ≤ Config.msgCap ∧ (cipherState [0x68] [] []).pwdlen = 0) ∧
    ((drawState .fail).pwdlen ≠ 0 ∧ rngNextAnswer Config.reference (drawState .fail) = .fail) ∧
    ((drawState (.bytes draw)).pwdlen ≠ 0 ∧ rngNextAnswer Config.reference (drawState (.bytes draw)) = .bytes draw ∧
      (drawState (.bytes draw)).pwdlen.toNat ≤ Config.pwdCap ∧
      Config.nonceSize + (drawState (.bytes draw)).msglen.toNat + Config.tagSize ≤ Config.payCap) := by decide +kernel

/-- EncryptFrame, RecordLengths, CipherCommandsAreFunctionsOfTheirRows, OnlyEncryptDraws: `ENCRYPT` with the draw of
V-CIP-1 completes with `NONE`, its request made. -/
theorem witness_encryptSucceeds :
    ∃ t, exec .encrypt (drawState (.bytes draw)) = .next t ∧ t.status = 0x002 ∧ t.draws = 1 := by
  refine ⟨encryptNext Config.reference (drawState (.bytes draw)), ?_, ?_, ?_⟩
  · rw [exec_eq, show premise Config.reference (drawState (.bytes draw)) .encrypt = none by decide +kernel]; rfl
  · rfl
  · rw [encryptNext, show emptyPassword (drawState (.bytes draw)) = false by decide +kernel, if_neg Bool.false_ne_true,
      show rngNextAnswer Config.reference (drawState (.bytes draw)) = .bytes draw from rfl]
    obtain ⟨m, hm⟩ := writeBytes_eq_setMem (s := rngConsume (drawState (.bytes draw))) .pay
      (sealRecord Config.reference (password (drawState (.bytes draw))) draw.toList (message (drawState (.bytes draw)))) 0
    simp only [hm]
    rfl

/-- CipherCommandsAreFunctionsOfTheirRows: a second state that differs in `PAY`, `CUR` and the draw. -/
theorem witness_encryptFunction :
    let s := drawState (.bytes draw)
    let s' := { drawState (.bytes draw.reverse) with pay := [], cur := 9 }
    s'.msglen = s.msglen ∧ s'.pwdlen = s.pwdlen ∧ message s' = message s ∧ password s' = password s ∧
    rngNextAnswer Config.reference s' ≠ .fail ∧ rngNextAnswer Config.reference s' ≠ rngNextAnswer Config.reference s := by decide +kernel

/-- `cells S` holds `S` from index 0. -/
theorem peek_zipIdx (S : List Byte) (n i : Nat) :
    Memory.peek ((S.zipIdx n).map fun p => (p.2, p.1)) (n + i) = S[i]? := by
  induction S generalizing n i with
  | nil => rfl
  | cons v S ih =>
    cases i with
    | zero => simp [Memory.peek]
    | succ i => simpa [Memory.peek, Nat.add_assoc, Nat.add_comm 1 i] using ih (n + 1) i

/-- ExtractFrame, ExtractIsItsSlotSteps, RecordLengths, EncryptThenDecryptReturnsTheMessage, in another configuration:
the largest image it takes, a header that does not fit it, and a command of it that completes. -/
theorem witness_configured :
    pixelCount (codecState 30 [] []) ≤ (smallParams hdrParse).maxPixels ∧
    hdrParse (gatherHeader (codecState 30 (slotImage 30 [0x30, 0x30, 0x30, 0x30, 0x30, 0x30, 0x30, 0x35]) [])) = some 5 ∧
    (smallParams hdrParse).extractOverrun = .partialPayload ∧
    nextIs (execWith (smallParams hdrParse) .encrypt (cipherState [1, 2, 3] [] []))
      (fun e => e.status == 0x002 && Nat.ble e.paylen.toNat (smallParams hdrParse).msgCap) = true ∧
    nextIs (execWith (smallParams hdrParse) .decrypt (cipherState [] [1, 2, 3] [])) (fun t => t.status == 0x002) = true := by
  decide +kernel

/-- CopyAndRngDoWhatTheirLinesSay: bytes that are no answer of the port. -/
theorem witness_rngLength : ([1, 2, 3] : List Byte).length ≠ Config.nonceSize := by decide

/-- The payload of a state that holds the bytes `P` is `P`. -/
theorem payload_cipherState (msg P pwd : List Byte) (h : P.length < 4294967296) :
    payload (cipherState msg P pwd) = P := by
  have hlen : (cipherState msg P pwd).paylen.toNat = P.length := by
    simp only [cipherState, BitVec.toNat_ofNat]; omega
  rw [payload, hlen]
  refine readBytes_eq fun i hi => ?_
  have := peek_zipIdx P 0 i
  simp only [Nat.zero_add] at this
  simp [memRead, State.mem, cipherState, cells, this, hi]

/-- The record of the empty message under the password `p`, with the draw of V-CIP-1, waiting in `PAY`. -/
def recordState : State := cipherState [0x11] (sealRecord Config.reference [0x70] draw.toList []) [0x70]

theorem recordState_paylen : recordState.paylen = 28 := by
  simp [recordState, cipherState, recordLen]

theorem recordState_opens : openRecord Config.reference (password recordState) (payload recordState) = some [] := by
  rw [show password recordState = [0x70] by rfl, recordState, payload_cipherState _ _ _ (by simp [recordLen])]
  exact openRecord_sealRecord _ _ _ _

/-- DecryptOpensTheRecord, DecryptionErrorTellsOnlyTheLength: the bypass, one byte less than a nonce, a record that
opens. -/
theorem witness_decrypt :
    ((cipherState [] [0xff, 0xfe] []).pwdlen = 0 ∧ (cipherState [] [0xff, 0xfe] []).paylen.toNat ≤ Config.payCap) ∧
    ((cipherState [] (List.replicate 11 0) [0x70]).pwdlen ≠ 0 ∧
      (cipherState [] (List.replicate 11 0) [0x70]).paylen.toNat < Config.nonceSize) ∧
    (recordState.pwdlen ≠ 0 ∧ ¬ recordState.paylen.toNat < Config.nonceSize ∧
      recordState.paylen.toNat ≤ Config.msgCap ∧
      openRecord Config.reference (password recordState) (payload recordState) = some []) := by
  refine ⟨by decide +kernel, by decide +kernel, by decide +kernel, ?_, ?_, recordState_opens⟩ <;>
    rw [recordState_paylen] <;> decide

/-- DecryptOpensTheRecord, DecryptionErrorTellsOnlyTheLength: a nonce and one byte, too short for a tag, fails for
every cipher (R133). -/
theorem witness_decryptFails :
    openRecord Config.reference (password (cipherState [] (List.replicate 13 0) [0x70]))
      (payload (cipherState [] (List.replicate 13 0) [0x70])) = none := by
  cases h : openRecord Config.reference (password (cipherState [] (List.replicate 13 0) [0x70]))
      (payload (cipherState [] (List.replicate 13 0) [0x70])) with
  | none => rfl
  | some p =>
    have := length_openRecord _ h
    rw [payload_cipherState _ _ _ (by simp)] at this
    simp at this

/-- DecryptFrame, RecordLengths, CipherCommandsAreFunctionsOfTheirRows: `DECRYPT` opens a record. -/
theorem witness_decryptSucceeds :
    ∃ t, exec .decrypt recordState = .next t ∧ t.status = 0x002 ∧ recordState.pwdlen ≠ 0 := by
  refine ⟨decryptNext Config.reference recordState, ?_, ?_, by decide⟩
  · have hp : premise Config.reference recordState .decrypt = none := by
      simp only [premise, decryptPremise, recordState_paylen]; decide
    rw [exec_eq, hp]; rfl
  · rw [decryptNext, show emptyPassword recordState = false by decide +kernel, recordState_opens, recordState_paylen]
    rfl

/-- DecryptFrame, NoPartialResults, DecryptionErrorTellsOnlyTheLength: a `DECRYPT` that raises. -/
theorem witness_decryptRaises : ∃ t, exec .decrypt (cipherState [0x11] (List.replicate 11 0) [0x70, 0x77]) = .next t ∧
    t.status = 0x132 ∧ t.err ≠ 0 := by
  obtain ⟨t, h, ht⟩ := exists_of_nextIs (p := fun t => t.status == 0x132 && t.err != 0)
    (show nextIs (exec .decrypt (cipherState [0x11] (List.replicate 11 0) [0x70, 0x77])) _ = true by decide +kernel)
  exact ⟨t, h, by simpa using ht⟩

/-- NoPartialResults, EncryptFrame, OnlyEncryptDraws: an `ENCRYPT` that raises. -/
theorem witness_encryptRaises : ∃ t, exec .encrypt (drawState .fail) = .next t ∧ t.status = 0x022 ∧ t.err ≠ 0 := by
  obtain ⟨t, h, ht⟩ := exists_of_nextIs (p := fun t => t.status == 0x022 && t.err != 0)
    (show nextIs (exec .encrypt (drawState .fail)) _ = true by decide +kernel)
  exact ⟨t, h, by simpa using ht⟩

/-- CipherCommandsAreFunctionsOfTheirRows: two states that `DECRYPT` cannot tell apart. -/
theorem witness_decryptFunction :
    let s := cipherState [] [0xff, 0xfe] []
    let s' := { cipherState [1] [0xff, 0xfe] [] with cur := 9, status := 0x042 }
    s' ≠ s ∧ s'.paylen = s.paylen ∧ s'.pwdlen = s.pwdlen ∧ payload s' = payload s ∧ password s' = password s ∧
    nextIs (exec .decrypt s) (fun t => t.status == 0x002) = true := by decide +kernel

/-- EncryptThenDecryptReturnsTheMessage, AnotherPasswordFailsUnlessTheCipherOpens, NothingMarksARecord (first part). -/
theorem witness_cipherRoundTrip :
    (drawState (.bytes draw)).idle ∧ (drawState (.bytes draw)).pwdlen ≠ 0 ∧
    Config.nonceSize + (drawState (.bytes draw)).msglen.toNat + Config.tagSize ≤ Config.payCap ∧
    rngNextAnswer Config.reference (drawState (.bytes draw)) = .bytes draw ∧ rngNextAnswer Config.reference (drawState (.bytes draw)) ≠ .fail ∧
    ([0x70, 0x77, 0x32] : List Byte) ≠ [] ∧ ([0x70, 0x77, 0x32] : List Byte).length ≤ Config.pwdCap ∧
    ([0, 0, 0] : List Byte).length ≤ Config.msgCap := by decide +kernel

/-- EncryptThenDecryptReturnsTheMessage and NothingMarksARecord (second part): no password, 11 bytes of message. -/
theorem witness_plainRoundTrip :
    (cipherState (List.replicate 11 0x61) [] []).idle ∧ (cipherState (List.replicate 11 0x61) [] []).pwdlen = 0 ∧
    (cipherState (List.replicate 11 0x61) [] []).msglen.toNat < Config.nonceSize := by decide +kernel

/-- WhatIsNotAnError: the empty password, and a payload of 1,000,001 bytes in an image of 2,666,691 pixels. -/
theorem witness_notAnError :
    (cipherState [] [0xff, 0xfe] []).pwdlen = 0 ∧
    let s : State := { State.reset with width := 2666691, height := 1, paylen := 1000001 }
    pixelCount s ≤ Config.maxPixels ∧ 1000000 < s.paylen.toNat ∧ s.paylen.toNat < 100000000 ∧
      8 * (8 + s.paylen.toNat) ≤ 3 * pixelCount s := by decide +kernel

/-- LaunchPremisesRefuse: `ENCRYPT` with a password at the longest message and one byte above it. -/
theorem witness_launchPremises :
    encryptPremise Config.reference { State.reset with pwdlen := 1, msglen := 4294967267 } = none ∧
    encryptPremise Config.reference { State.reset with pwdlen := 1, msglen := 4294967268 } = some .resultOverCapacity := by
  decide +kernel

/-- PipelinesAreTheirCommands: `ENCRYPT` ends with `NONE` (the bypass) and with `ENCRYPTION`. -/
theorem witness_pipelines : (cipherState [0x68] [] []).idle ∧
    nextIs (exec .encrypt (cipherState [0x68] [] [])) (fun e => e.err == 0) = true ∧ (drawState .fail).idle ∧
    nextIs (exec .encrypt (drawState .fail)) (fun e => e.err != 0) = true ∧
    nextIs (exec .extract State.reset) (fun _ => true) = true := by decide +kernel

/-- EncodeThenDecodeReturnsTheMessage: a message of 1 byte under a password into 100 pixels, the largest that fits
(R204), and the exact fit without a password. -/
theorem witness_encodeThenDecode :
    let s := { cipherState [0x61] [] [0x70, 0x77] with width := 10, height := 10, rngNext := some (.ofAnswer (n := Config.nonceSize) (.bytes draw)) }
    let p := { cipherState [0xa5] [] [] with width := 24, height := 1 }
    (s.idle ∧ s.pwdlen ≠ 0 ∧ pixelCount s ≤ Config.maxPixels ∧ 8 * recordLen Config.reference s.msglen.toNat + 64 ≤ 3 * pixelCount s ∧
      recordLen Config.reference s.msglen.toNat ≤ 1000000 ∧ rngNextAnswer Config.reference s ≠ .fail) ∧
    (p.idle ∧ p.pwdlen = 0 ∧ 8 * p.msglen.toNat + 64 ≤ 3 * pixelCount p ∧ p.msglen.toNat ≤ 1000000) := by
  decide +kernel

/-- DecodeOfNoMessage: an image of no pixels, without and with a password. -/
theorem witness_noMessage : State.reset.idle ∧ State.reset.pwdlen = 0 ∧
    nextIs (exec .extract State.reset) (fun e => e.paylen == 0) = true ∧
    (cipherState [] [1] [0x70]).idle ∧ (cipherState [] [1] [0x70]).pwdlen ≠ 0 ∧
    nextIs (exec .extract (cipherState [] [1] [0x70])) (fun e => e.paylen == 0) = true := by decide +kernel

/-- EveryStepKeepsTheInvariant in another configuration: a byte at the end of its `PAY`, about to run `EXTRACT`. -/
theorem witness_invariantConfigured :
    let s := ({ State.reset with pay := [(999999, 1)] } : State).withFetchWord 32 2
    s.InvWith (smallParams hdrParse) ∧ ∃ t, stepWith (smallParams hdrParse) s = .next t := by
  refine ⟨⟨by decide, by decide, fun σ => ?_⟩, ?_⟩
  · cases σ <;> exact ⟨by simp [State.mem, State.withFetchWord, State.reset],
      by simp [State.mem, State.withFetchWord, State.reset, Params.storeSize, smallParams]⟩
  · obtain ⟨t, h, -⟩ := exists_of_nextIs (p := fun _ => true)
      (show nextIs (stepWith (smallParams hdrParse)
        (({ State.reset with pay := [(999999, 1)] } : State).withFetchWord 32 2)) _ = true by decide +kernel)
    exact ⟨t, h⟩

/-- EveryStepKeepsTheInvariant, NoStepLeavesTheBlockBusy: a state with a store byte at the end of `SRC`, about to run
`EMBED`. -/
theorem witness_invariant :
    let s := ({ State.reset with src := [(17179869179, 1)], cur := 800000056 } : State).withFetchWord 32 1
    s.Inv ∧ s.idle ∧ ∃ t, step s = .next t := by
  refine ⟨⟨by decide, by decide, fun σ => ?_⟩, by decide, ?_⟩
  · cases σ <;> exact ⟨by simp [State.mem, State.withFetchWord, State.reset],
      by simp [State.mem, State.withFetchWord, State.reset, Params.storeSize]⟩
  · obtain ⟨t, h, -⟩ := exists_of_nextIs (p := fun _ => true)
      (show nextIs (step (({ State.reset with src := [(17179869179, 1)], cur := 800000056 } : State).withFetchWord 32 1))
        _ = true by decide +kernel)
    exact ⟨t, h⟩

end Sys2Proof.Tests
end

section
/-! PROOFS, family 10_state: facts about the state that the obligations of spec/10_state.md share: which updates leave
the stores alone, which values `STATUS` takes, when a launch premise holds. -/

namespace Sys2Proof.Machine

variable (c : Params) (s : State)

/-! ## Updates that leave the stores alone -/

@[simp] theorem mem_withScript (rest : List HostAction) (σ : Store) :
    ({ s with script := rest } : State).mem σ = s.mem σ := by
  cases σ <;> rfl

@[simp] theorem mem_withHostRead (d : Option HostDatum) (σ : Store) :
    ({ s with hostRead := d } : State).mem σ = s.mem σ := by
  cases σ <;> rfl

@[simp] theorem mem_withRngNext (r : Option RngLine) (σ : Store) :
    ({ s with rngNext := r } : State).mem σ = s.mem σ := by
  cases σ <;> rfl

/-! ## A host's register write (R43, R44) -/

/-- A write to a register that is no operand register is ignored (R43, R44). -/
theorem setReg_of_not_operand {n : Nat} (v : Word) (h : n < 2 ∨ 6 < n) : setReg s n v = s := by
  unfold setReg
  split
  case h_6 => rfl
  all_goals omega

@[simp] theorem setReg_status (n : Nat) (v : Word) : (setReg s n v).status = s.status := by
  unfold setReg; split <;> rfl

@[simp] theorem setReg_cur (n : Nat) (v : Word) : (setReg s n v).cur = s.cur := by
  unfold setReg; split <;> rfl

@[simp] theorem mem_setReg (n : Nat) (v : Word) (σ : Store) : (setReg s n v).mem σ = s.mem σ := by
  unfold setReg; split <;> cases σ <;> rfl

/-! ## A string of writes changes one store -/

@[simp] theorem writeBytes_status (σ : Store) (a : Nat) (S : List Byte) :
    (writeBytes s σ a S).status = s.status := by
  obtain ⟨m, h⟩ := writeBytes_eq_setMem s σ S a
  simp [h]

@[simp] theorem writeBytes_cur (σ : Store) (a : Nat) (S : List Byte) : (writeBytes s σ a S).cur = s.cur := by
  obtain ⟨m, h⟩ := writeBytes_eq_setMem s σ S a
  simp [h]

theorem mem_writeBytes_of_ne {σ τ : Store} (a : Nat) (S : List Byte) (h : τ ≠ σ) :
    (writeBytes s σ a S).mem τ = s.mem τ := by
  obtain ⟨m, hm⟩ := writeBytes_eq_setMem s σ S a
  rw [hm, mem_setMem_of_ne _ _ h]

/-! ## When a launch premise holds (R272) -/

theorem embedPremise_eq_none :
    embedPremise c s = none ↔ pixelCount s ≤ c.maxPixels ∧ s.paylen.toNat ≤ c.payCap := by
  unfold embedPremise
  split_ifs <;> simp <;> omega

theorem extractPremise_eq_none : extractPremise c s = none ↔ pixelCount s ≤ c.maxPixels := by
  unfold extractPremise
  split_ifs <;> simp <;> omega

theorem encryptPremise_eq_none :
    encryptPremise c s = none ↔
      s.msglen.toNat ≤ c.msgCap ∧ s.pwdlen.toNat ≤ c.pwdCap ∧ encryptedLen c s ≤ c.payCap := by
  unfold encryptPremise
  split_ifs <;> simp <;> omega

theorem decryptPremise_eq_none :
    decryptPremise c s = none ↔
      s.paylen.toNat ≤ c.payCap ∧ s.pwdlen.toNat ≤ c.pwdCap ∧ s.paylen.toNat ≤ c.msgCap := by
  unfold decryptPremise
  split_ifs <;> simp <;> omega

/-! ## The length of a frame that fits (R100, R106) -/

theorem frameBits_eq (L : Nat) : frameBits L = 8 * (8 + L) := rfl

/-- The frame of an accepted payload is no longer than the largest value of `CUR` (R27). -/
theorem frameBits_le_of_fits {L N : Nat} (hf : fits L N = true) : frameBits L ≤ maxCur := by
  obtain ⟨hL, -⟩ := (fits_iff L N).1 hf
  rw [frameBits_eq, maxCur]
  omega

/-- So the slot cursor holds its length (R7). -/
theorem frameBits_lt_of_fits {L N : Nat} (hf : fits L N = true) : frameBits L < 4294967296 :=
  (frameBits_le_of_fits hf).trans_lt (by decide)

/-! ## The values of `STATUS` (R29) -/

@[simp] theorem statusLegal_setStatus (v : Word) : (s.setStatus v).statusLegal ↔ v ∈ idleStatusValues := Iff.rfl

theorem embedNext_status : (embedNext s).status ∈ ([0x002, 0x012] : List Word) := by
  unfold embedNext
  split <;> simp

theorem extractNext_status : (extractNext c s).status = 0x002 := by
  unfold extractNext
  split
  · rfl
  · split <;> rfl

theorem encryptNext_status : (encryptNext c s).status ∈ ([0x002, 0x022] : List Word) := by
  unfold encryptNext
  split
  · simp
  · split <;> simp

theorem decryptNext_status : (decryptNext c s).status ∈ ([0x002, 0x032, 0x132] : List Word) := by
  unfold decryptNext
  split
  · simp
  · split
    · simp
    · split <;> simp

/-- A command that completes leaves a legal idle `STATUS`. -/
theorem nextState_statusLegal (i : Instr) : (nextState c s i).statusLegal := by
  cases i with
  | embed => exact (by decide : ([0x002, 0x012] : List Word) ⊆ idleStatusValues) (embedNext_status s)
  | extract => rw [State.statusLegal, nextState, extractNext_status]; decide
  | encrypt => exact (by decide : ([0x002, 0x022] : List Word) ⊆ idleStatusValues) (encryptNext_status c s)
  | decrypt =>
    exact (by decide : ([0x002, 0x032, 0x132] : List Word) ⊆ idleStatusValues) (decryptNext_status c s)

theorem resetEvent_statusLegal : (resetEvent s).statusLegal :=
  (by decide : (0 : Word) ∈ idleStatusValues)

/-- A host action that completes leaves `STATUS` alone or at a legal idle value. -/
theorem hostEffect_status {c : Params} {s t : State} (h : HostEffect c (execWith c) s t) :
    t.status = s.status ∨ t.statusLegal := by
  cases h with
  | command w _ done =>
    obtain ⟨i, -, hi⟩ | ⟨-, rfl⟩ := issue_next done
    · obtain ⟨-, rfl⟩ := execWith_next c hi
      exact .inr (nextState_statusLegal c s i)
    · exact .inr (by simp [idleStatusValues])
  | register n v _ eq => exact .inl (by simp [eq])
  | read d eq => exact .inl (by rw [eq])
  | store σ a S _ _ eq => exact .inl (by simp [eq])
  | entropy line eq => exact .inl (by rw [eq])
  | nothing eq => exact .inl (by rw [eq])
  | reset eq => exact .inr (eq ▸ resetEvent_statusLegal s)

/-- A step that completes leaves `STATUS` alone or at a legal idle value. -/
theorem stepWith_status {c : Params} {s t : State} (h : stepWith c s = .next t) :
    t.status = s.status ∨ t.statusLegal := by
  obtain ⟨-, rfl⟩ | ⟨a, rest, -, he⟩ := nextActionWith_next h
  · exact .inl rfl
  · simpa using hostEffect_status he

theorem step_status {s t : State} (h : step s = .next t) : t.status = s.status ∨ t.statusLegal :=
  stepWith_status (by rwa [stepWith_reference])

/-- Every legal value has `BUSY = 0` (R30), the reserved bits 0 (R34) and a code of R220. -/
theorem idleStatusValues_fields : ∀ v ∈ idleStatusValues,
    v.getLsbD 0 = false ∧ v &&& 0xFFFFFE8C = 0 ∧ (v.extractLsb' 4 3).toNat ≤ 4 := by
  simp [idleStatusValues]

end Sys2Proof.Machine
end

section
/-! PROOFS, family 10_state: the invariant of the block, in every configuration (R27, R29, R60, R73; log 4). -/

namespace Sys2Proof.Machine

variable {c : Params} {s t : State}

/-! ## The stores stay in form -/

theorem storesOk_congr (hm : ∀ σ, t.mem σ = s.mem σ) (h : s.storesOk c) : t.storesOk c := fun σ => by
  rw [hm σ]; exact h σ

@[simp] theorem storesOk_setStatus (v : Word) : (s.setStatus v).storesOk c ↔ s.storesOk c := by
  simp [State.storesOk]

@[simp] theorem storesOk_setCur (v : Nat) : (s.setCur v).storesOk c ↔ s.storesOk c := by
  simp [State.storesOk]

@[simp] theorem storesOk_setPaylen (v : Nat) : (s.setPaylen v).storesOk c ↔ s.storesOk c := by
  simp [State.storesOk]

@[simp] theorem storesOk_setMsglen (v : Nat) : (s.setMsglen v).storesOk c ↔ s.storesOk c := by
  simp [State.storesOk]

@[simp] theorem storesOk_rngConsume : (rngConsume s).storesOk c ↔ s.storesOk c := by
  simp [State.storesOk]

/-- Bytes written inside a store keep every store in form. -/
theorem storesOk_writeBytes {σ : Store} {a : Nat} {S : List Byte} (h : s.storesOk c)
    (inside : S ≠ [] → a + S.length ≤ c.storeSize σ) : (writeBytes s σ a S).storesOk c := by
  intro τ
  by_cases hτ : τ = σ
  · subst hτ
    exact ⟨writeBytes_wf S a (h τ).1, writeBytes_within S a inside (h τ).2⟩
  · rw [mem_writeBytes_of_ne s a S hτ]
    exact h τ

/-- The copy of an image that fits the pixel stores keeps them in form (R161 step 4). -/
theorem storesOk_copyImage (h : s.storesOk c) (hN : pixelCount s ≤ c.maxPixels) : (copyImage s).storesOk c := by
  refine storesOk_writeBytes h fun _ => ?_
  simpa [Params.storeSize] using hN

/-- One slot step below `3 * MAX_PIXELS` keeps every store in form (R162). -/
theorem storesOk_embedSlot (B : List Byte) (h : s.storesOk c) (hk : s.cur.toNat < 3 * c.maxPixels) :
    (embedSlot B s).storesOk c := by
  have haddr : slotAddr s.cur.toNat + 1 ≤ 4 * c.maxPixels := by rw [slotAddr_eq]; omega
  simp only [embedSlot, storesOk_setCur]
  exact storesOk_writeBytes (S := [_]) h fun _ => haddr

/-- The scatter loop keeps every store in form while it stays below `3 * MAX_PIXELS`. -/
theorem storesOk_embedSlots (B : List Byte) (n : Nat) (h : s.storesOk c)
    (hn : s.cur.toNat + n ≤ 3 * c.maxPixels) : (embedSlots B n s).storesOk c := by
  induction n generalizing s with
  | zero => exact h
  | succ n ih =>
    have hcur : (embedSlot B s).cur.toNat ≤ s.cur.toNat + 1 := by
      simpa [embedSlot] using Nat.mod_le _ _
    exact ih (storesOk_embedSlot B h (by omega)) (by omega)

theorem storesOk_embedNext (hp : embedPremise c s = none) (h : s.storesOk c) : (embedNext s).storesOk c := by
  obtain ⟨hN, -⟩ := (embedPremise_eq_none c s).1 hp
  unfold embedNext
  split
  · next hf =>
    obtain ⟨-, hT⟩ := (fits_iff _ _).1 hf
    rw [storesOk_setStatus]
    refine storesOk_embedSlots _ _ ((storesOk_setCur 0).2 (storesOk_copyImage h hN)) ?_
    have hcur : ((copyImage s).setCur 0).cur.toNat = 0 := rfl
    rw [hcur, frameBits_eq]
    omega
  · simpa using h

theorem storesOk_extractNext (h : s.storesOk c) : (extractNext c s).storesOk c := by
  unfold extractNext
  split
  · simpa using h
  · next h0 =>
    split
    · simpa using h
    · next m hm =>
      have hle := (headerClaim_le c s (by simpa [slots] using h0) hm).1
      have hcap : 1000000 ≤ c.payCap := c.extractMax_le_payCap
      simp only [storesOk_setStatus, storesOk_setPaylen, storesOk_setCur]
      refine storesOk_writeBytes h fun _ => ?_
      simp only [length_gatherPayload, Params.storeSize]
      omega

theorem storesOk_encryptNext (hp : encryptPremise c s = none) (h : s.storesOk c) :
    (encryptNext c s).storesOk c := by
  obtain ⟨-, -, hlen⟩ := (encryptPremise_eq_none c s).1 hp
  unfold encryptNext
  split
  · next he =>
    simp only [storesOk_setStatus, storesOk_setPaylen]
    refine storesOk_writeBytes h fun _ => ?_
    simpa [encryptedLen, he, Params.storeSize] using hlen
  · next he =>
    split
    · simpa using h
    · simp only [storesOk_setStatus, storesOk_setPaylen]
      refine storesOk_writeBytes (storesOk_rngConsume.2 h) fun _ => ?_
      simpa [encryptedLen, he, Params.storeSize] using hlen

theorem storesOk_decryptNext (hp : decryptPremise c s = none) (h : s.storesOk c) :
    (decryptNext c s).storesOk c := by
  obtain ⟨-, -, hmsg⟩ := (decryptPremise_eq_none c s).1 hp
  unfold decryptNext
  split
  · simp only [storesOk_setStatus, storesOk_setMsglen]
    refine storesOk_writeBytes h fun _ => ?_
    simpa [Params.storeSize] using hmsg
  · split
    · simpa using h
    · split
      · simpa using h
      · next p ho =>
        have hlen := length_openRecord c ho
        rw [length_payload] at hlen
        simp only [storesOk_setStatus, storesOk_setMsglen]
        refine storesOk_writeBytes h fun _ => ?_
        simp only [Params.storeSize]
        omega

/-- A command whose premise holds keeps every store in form. -/
theorem storesOk_nextState {i : Instr} (hp : premise c s i = none) (h : s.storesOk c) :
    (nextState c s i).storesOk c := by
  cases i with
  | embed => exact storesOk_embedNext hp h
  | extract => exact storesOk_extractNext h
  | encrypt => exact storesOk_encryptNext hp h
  | decrypt => exact storesOk_decryptNext hp h

/-! ## `CUR` stays within its range -/

/-- The cursor after a successful `EMBED` is the length of the frame (R161). -/
theorem embedSlots_copyImage_cur {s : State} (B : List Byte) {T : Nat} (hT : T < 4294967296) :
    (embedSlots B T ((copyImage s).setCur 0)).cur.toNat = T := by
  simpa using (embedSlots_spec ((copyImage s).setCur 0) B T (by simpa using hT)).1

theorem embedNext_cur_le (s : State) : (embedNext s).cur.toNat ≤ maxCur := by
  unfold embedNext
  split
  · next hf =>
    rw [setStatus_cur, embedSlots_copyImage_cur _ (frameBits_lt_of_fits hf)]
    exact frameBits_le_of_fits hf
  · simp

theorem extractNext_cur_le (c : Params) (s : State) : (extractNext c s).cur.toNat ≤ maxCur := by
  unfold extractNext
  split
  · simp
  · next h0 =>
    split
    · simp [maxCur]
    · next m hm =>
      have hle := (headerClaim_le c s (by simpa [slots] using h0) hm).1
      have hcur : (BitVec.ofNat 32 (64 + 8 * m)).toNat ≤ 64 + 8 * m := by simpa using Nat.mod_le _ _
      simp only [setStatus_cur, setPaylen_cur, setCur_cur, maxCur]
      omega

theorem encryptNext_cur (c : Params) (s : State) : (encryptNext c s).cur = s.cur := by
  unfold encryptNext
  split
  · simp
  · split <;> simp

theorem decryptNext_cur (c : Params) (s : State) : (decryptNext c s).cur = s.cur := by
  unfold decryptNext
  split
  · simp
  · split
    · simp
    · split <;> simp

/-- A command leaves `CUR` within its range (R27). -/
theorem nextState_cur_le (i : Instr) (h : s.cur.toNat ≤ maxCur) : (nextState c s i).cur.toNat ≤ maxCur := by
  cases i with
  | embed => exact embedNext_cur_le s
  | extract => exact extractNext_cur_le c s
  | encrypt => simpa [nextState, encryptNext_cur] using h
  | decrypt => simpa [nextState, decryptNext_cur] using h

/-! ## The invariant -/

/-- The invariant reads `STATUS`, `CUR` and the stores alone. -/
theorem invWith_congr (hst : t.status = s.status) (hcur : t.cur = s.cur) (hm : ∀ σ, t.mem σ = s.mem σ)
    (h : s.InvWith c) : t.InvWith c := by
  obtain ⟨hlegal, hle, hok⟩ := h
  exact ⟨by rwa [State.statusLegal, hst], by rwa [hcur], storesOk_congr hm hok⟩

theorem execWith_invWith {i : Instr} (h : s.InvWith c) (hx : execWith c i s = .next t) : t.InvWith c := by
  obtain ⟨-, hcur, hok⟩ := h
  obtain ⟨hp, rfl⟩ := execWith_next c hx
  exact ⟨nextState_statusLegal c s i, nextState_cur_le i hcur, storesOk_nextState hp hok⟩

/-- At reset every register is 0 and every store is empty (R46). -/
theorem reset_invWith (c : Params) : State.reset.InvWith c := by
  refine ⟨by decide, by decide, fun σ => ?_⟩
  cases σ <;> simp [State.reset, State.mem]

/-- A reset event leaves the reset values, whatever the state (R260). -/
theorem resetEvent_invWith (c : Params) (s : State) : (resetEvent s).InvWith c :=
  invWith_congr rfl rfl (fun σ => by cases σ <;> rfl) (reset_invWith c)

theorem hostEffect_invWith (h : s.InvWith c) (he : HostEffect c (execWith c) s t) : t.InvWith c := by
  cases he with
  | command w _ done =>
    obtain ⟨i, -, hx⟩ | ⟨-, rfl⟩ := issue_next done
    · exact execWith_invWith h hx
    · obtain ⟨-, hcur, hok⟩ := h
      exact ⟨by simp [idleStatusValues], hcur, (storesOk_setStatus _).2 hok⟩
  | register n v _ eq => subst eq; exact invWith_congr (by simp) (by simp) (by simp) h
  | read d eq => subst eq; exact invWith_congr rfl rfl (by simp) h
  | store σ a S _ inside eq =>
    subst eq
    obtain ⟨hlegal, hcur, hok⟩ := h
    exact ⟨by simpa [State.statusLegal] using hlegal, by simpa using hcur, storesOk_writeBytes hok inside⟩
  | entropy line eq => subst eq; exact invWith_congr rfl rfl (by simp) h
  | nothing eq => exact eq ▸ h
  | reset eq => exact eq ▸ resetEvent_invWith c s

theorem stepWith_invWith (h : s.InvWith c) (hs : stepWith c s = .next t) : t.InvWith c := by
  obtain ⟨-, rfl⟩ | ⟨a, rest, -, he⟩ := nextActionWith_next hs
  · exact h
  · exact hostEffect_invWith (s := { s with script := rest }) (invWith_congr rfl rfl (by simp) h) he

/-- Settles O59: each of the seven things a host action can do keeps the invariant, and a command does so because its
launch premise and the bounds of R27 keep its writes inside the stores and `CUR` in its range. -/
theorem everyStepKeepsTheInvariant : Obligations.EveryStepKeepsTheInvariant := by
  refine ⟨fun s t h hs => ?_, fun c s t => stepWith_invWith⟩
  rw [← stepWith_reference] at hs
  exact stepWith_invWith h hs

/-- Settles O58: at reset the registers are 0 and the stores empty. -/
theorem resetMeetsTheInvariant : Obligations.ResetMeetsTheInvariant := reset_invWith Config.reference

end Sys2Proof.Machine
end

section
/-! PROOFS, family 10_state: what follows from "a step leaves `STATUS` alone or at a legal idle value" (R30, R34). -/

namespace Sys2Proof.Machine

/-- The bits of `STATUS` that are not reserved are 0, 1, 4, 5, 6 and 8 (R29). -/
theorem statusFields_getLsbD {k : Nat} (hk : k ∉ [0, 1, 4, 5, 6, 8]) : statusFields.getLsbD k = false := by
  by_cases hlt : k < 32
  · exact (by decide : ∀ k < 32, k ∉ [0, 1, 4, 5, 6, 8] → statusFields.getLsbD k = false) k hlt hk
  · exact BitVec.getLsbD_of_ge _ _ (by omega)

/-- Settles O11: a read masks the reserved bits, and a step that changes `STATUS` leaves one of the legal values, in
which they are 0 and the code is one of R220. -/
theorem reservedStatusBitsStayZero : Obligations.ReservedStatusBitsStayZero := by
  refine ⟨fun s k hk => ?_, fun s t hs hne => ?_⟩
  · change (s.status &&& statusFields).getLsbD k = false
    rw [BitVec.getLsbD_and, statusFields_getLsbD hk, Bool.and_false]
  · have hlegal : t.statusLegal := (step_status hs).resolve_left hne
    obtain ⟨-, hreserved, herr⟩ := idleStatusValues_fields t.status hlegal
    exact ⟨hreserved, herr⟩

/-- Settles O60: a step keeps the `STATUS` of the idle block or leaves a legal value, in which `BUSY = 0`. -/
theorem noStepLeavesTheBlockBusy : Obligations.NoStepLeavesTheBlockBusy := by
  intro s t hidle hs
  obtain hsame | hlegal := step_status hs
  · rw [State.idle, State.busy, hsame]
    exact hidle
  · exact (idleStatusValues_fields t.status hlegal).1

/-- The start of a command overwrites `STATUS` (R99 step 1), so a launch does not depend on it. -/
theorem launch_withStatus (premise : Option Refusal) (pseudocode : State → State) (s : State) (v : Word) :
    launch premise pseudocode { s with status := v } = launch premise pseudocode s := by
  cases premise <;> rfl

/-- Settles O49: each command is a launch, and no launch premise reads `STATUS`. -/
theorem earlierResultsDoNotMatter : Obligations.EarlierResultsDoNotMatter := by
  intro i s v
  cases i with
  | embed => exact launch_withStatus (embedPremise Config.reference s) _ s v
  | extract => exact launch_withStatus (extractPremise Config.reference s) _ s v
  | encrypt => exact launch_withStatus (encryptPremise Config.reference s) _ s v
  | decrypt => exact launch_withStatus (decryptPremise Config.reference s) _ s v

end Sys2Proof.Machine
end

section
/-! PROOFS, family 10_state: no command reads `DST` (R36, R70). Other contents of `DST` are `s.setMem .dst d`. -/

namespace Sys2Proof.Machine

variable (c : Params) (s : State) (d : Memory)

/-! ## A store replaced: the other stores read and are written as before -/

theorem memRead_setMem_of_ne {σ τ : Store} (m : Memory) (a : Nat) (h : τ ≠ σ) :
    memRead (s.setMem σ m) τ a = memRead s τ a :=
  memRead_congr (mem_setMem_of_ne s m h) (by simp) a

theorem readBytes_setMem_of_ne {σ τ : Store} (m : Memory) (a n : Nat) (h : τ ≠ σ) :
    readBytes (s.setMem σ m) τ a n = readBytes s τ a n :=
  readBytes_congr fun _ _ => memRead_setMem_of_ne s m _ h

theorem setMem_comm {σ τ : Store} (m n : Memory) (h : τ ≠ σ) :
    (s.setMem σ m).setMem τ n = (s.setMem τ n).setMem σ m := by
  cases σ <;> cases τ <;> simp_all [State.setMem]

theorem writeBytes_setMem_of_ne {σ τ : Store} (m : Memory) (a : Nat) (S : List Byte) (h : τ ≠ σ) :
    writeBytes (s.setMem σ m) τ a S = (writeBytes s τ a S).setMem σ m := by
  induction S generalizing s a with
  | nil => rfl
  | cons v S ih => simp only [writeBytes, memWrite, mem_setMem_of_ne s m h, setMem_comm s m _ h, ih]

/-! ## What a command reads is the same whatever `DST` holds -/

@[simp] theorem payload_setDst : payload (s.setMem .dst d) = payload s := readBytes_setMem_of_ne s d _ _ (by decide)

@[simp] theorem message_setDst : message (s.setMem .dst d) = message s := readBytes_setMem_of_ne s d _ _ (by decide)

@[simp] theorem password_setDst : password (s.setMem .dst d) = password s :=
  readBytes_setMem_of_ne s d _ _ (by decide)

@[simp] theorem pixelCount_setDst : pixelCount (s.setMem .dst d) = pixelCount s := rfl

@[simp] theorem emptyPassword_setDst : emptyPassword (s.setMem .dst d) = emptyPassword s := rfl

@[simp] theorem rngNextAnswer_setDst : rngNextAnswer c (s.setMem .dst d) = rngNextAnswer c s := rfl

@[simp] theorem rngConsume_setDst : rngConsume (s.setMem .dst d) = (rngConsume s).setMem .dst d := rfl

@[simp] theorem gatherByte_setDst (k : Nat) : gatherByte (s.setMem .dst d) k = gatherByte s k := by
  simp only [gatherByte, slotBit, memRead_setMem_of_ne s d _ (show Store.src ≠ .dst by decide)]

@[simp] theorem gatherHeader_setDst : gatherHeader (s.setMem .dst d) = gatherHeader s := by simp [gatherHeader]

@[simp] theorem gatherPayload_setDst (m : Nat) : gatherPayload (s.setMem .dst d) m = gatherPayload s m := by
  simp [gatherPayload]

@[simp] theorem headerClaim_setDst : headerClaim c (s.setMem .dst d) = headerClaim c s := by simp [headerClaim]

theorem premise_setDst (i : Instr) : premise c (s.setMem .dst d) i = premise c s i := by
  cases i <;> rfl

/-! ## So the next state is the same but for `DST` -/

/-- A successful `EMBED` replaces `DST`, advances `CUR` to the length of the frame and ends with `NONE` (R161). -/
theorem embedNext_of_fits (hf : fits s.paylen.toNat (pixelCount s) = true) :
    ∃ m, embedNext s = ((s.setMem .dst m).setCur (frameBits s.paylen.toNat)).setStatus 0x002 := by
  have hcur := embedSlots_copyImage_cur (s := s) (frame (payload s)) (frameBits_lt_of_fits hf)
  obtain ⟨m, hm⟩ := writeBytes_eq_setMem s .dst (readBytes s .src 0 (Config.channels * pixelCount s)) 0
  obtain ⟨m', v, hv⟩ :=
    embedSlots_eq_setMem ((copyImage s).setCur 0) (frame (payload s)) (frameBits s.paylen.toNat)
  have hvT : BitVec.ofNat 32 v = BitVec.ofNat 32 (frameBits s.paylen.toNat) := by
    rw [← hcur, hv, setCur_cur, BitVec.ofNat_toNat, BitVec.setWidth_eq]
  refine ⟨m', ?_⟩
  rw [embedNext, if_pos hf, hv, copyImage, hm]
  simp only [State.setCur, hvT, State.setMem]

/-- The image a successful `EMBED` leaves (R161). -/
theorem memRead_embedNext_of_fits (hf : fits s.paylen.toNat (pixelCount s) = true) (τ : Store) (i : Nat) :
    memRead (embedNext s) τ i =
      if τ = .dst ∧ i % 4 ≤ 2 ∧ 3 * (i / 4) + i % 4 < frameBits s.paylen.toNat then
        setLsb (memRead s .src i) (bit (frame (payload s)) (3 * (i / 4) + i % 4))
      else if τ = .dst ∧ i < 4 * pixelCount s then memRead s .src i else memRead s τ i := by
  rw [embedNext, if_pos hf, memRead_setStatus, memRead_embedSlots_copyImage s _ (frameBits_lt_of_fits hf)]

theorem embedNext_setDst : ∃ d', embedNext (s.setMem .dst d) = (embedNext s).setMem .dst d' := by
  by_cases hf : fits s.paylen.toNat (pixelCount s) = true
  · obtain ⟨m, hm⟩ := embedNext_of_fits s hf
    obtain ⟨d', hd'⟩ := embedNext_of_fits (s.setMem .dst d) hf
    exact ⟨d', by rw [hd', hm]; rfl⟩
  · exact ⟨d, by simp [embedNext, hf]⟩

theorem extractNext_setDst : extractNext c (s.setMem .dst d) = (extractNext c s).setMem .dst d := by
  simp only [extractNext, pixelCount_setDst, headerClaim_setDst, gatherPayload_setDst]
  split
  · rfl
  · split
    · rfl
    · rw [writeBytes_setMem_of_ne s d _ _ (by decide)]; rfl

theorem encryptNext_setDst : encryptNext c (s.setMem .dst d) = (encryptNext c s).setMem .dst d := by
  simp only [encryptNext, emptyPassword_setDst, message_setDst, password_setDst, rngNextAnswer_setDst,
    rngConsume_setDst]
  split
  · rw [writeBytes_setMem_of_ne s d _ _ (by decide)]; rfl
  · split
    · rfl
    · rw [writeBytes_setMem_of_ne _ d _ _ (by decide)]; rfl

theorem decryptNext_setDst : decryptNext c (s.setMem .dst d) = (decryptNext c s).setMem .dst d := by
  simp only [decryptNext, emptyPassword_setDst, payload_setDst, password_setDst, setMem_paylen]
  split
  · rw [writeBytes_setMem_of_ne s d _ _ (by decide)]; rfl
  · split
    · rfl
    · split
      · rfl
      · rw [writeBytes_setMem_of_ne s d _ _ (by decide)]; rfl

theorem nextState_setDst (i : Instr) : ∃ d', nextState c (s.setMem .dst d) i = (nextState c s i).setMem .dst d' := by
  cases i with
  | embed => exact embedNext_setDst s d
  | extract => exact ⟨d, extractNext_setDst c s d⟩
  | encrypt => exact ⟨d, encryptNext_setDst c s d⟩
  | decrypt => exact ⟨d, decryptNext_setDst c s d⟩

/-- A successful `EMBED` leaves the same image whatever `DST` held. -/
theorem memRead_embedNext_setDst {j : Nat} (hst : (embedNext s).status = 0x002) (hj : j < 4 * pixelCount s) :
    memRead (embedNext (s.setMem .dst d)) .dst j = memRead (embedNext s) .dst j := by
  have hf : fits s.paylen.toNat (pixelCount s) = true := by
    by_contra hf
    simp [embedNext, hf] at hst
  have hsrc : memRead (s.setMem .dst d) .src j = memRead s .src j := memRead_setMem_of_ne s d j (by decide)
  rw [memRead_embedNext_of_fits (s.setMem .dst d) hf, memRead_embedNext_of_fits s hf]
  simp [hsrc, hj]

/-- Settles O51: premise and next state of a command are those of the state with another `DST`, but for `DST`. -/
theorem noCommandReadsDst : Obligations.NoCommandReadsDst := by
  intro i s t d hx
  obtain ⟨hp, rfl⟩ := exec_next hx
  have hx' : exec i (s.setMem .dst d) = .next (nextState Config.reference (s.setMem .dst d) i) := by
    rw [exec_eq, premise_setDst, hp]
  refine ⟨_, hx', ?_, ?_⟩
  · obtain ⟨d', hd'⟩ := nextState_setDst Config.reference s d i
    rw [hd']; rfl
  · rintro rfl hst j hj
    exact memRead_embedNext_setDst s d hst hj

end Sys2Proof.Machine
end

section
/-! PROOFS, family 10_state: the host's port, one equation per access of an idle and of a busy block (R28, R43, R44,
R61, R63, R270, R271). -/

namespace Sys2Proof.Machine

variable (s : State) (n : Nat) (v : Word)

/-! ## Reading and writing registers (R43, R44) -/

@[simp] theorem regValue_status : regValue s 1 = s.status &&& 0x173 := rfl

/-- The reserved registers read 0 (R44). -/
theorem regValue_of_reserved (h : 8 ≤ n) : regValue s n = 0 := by
  unfold regValue
  split
  case h_8 => rfl
  all_goals omega

/-- An operand register reads what was written to it. -/
theorem regValue_setReg_self (h2 : 2 ≤ n) (h6 : n ≤ 6) : regValue (setReg s n v) n = v := by
  interval_cases n <;> rfl

/-- A write to one register leaves every other one as it was. -/
theorem regValue_setReg_of_ne {m : Nat} (h : m ≠ n) : regValue (setReg s n v) m = regValue s m := by
  unfold setReg
  split
  case h_6 => rfl
  all_goals
    unfold regValue
    split <;> trivial

/-- A register write leaves every store byte as it was. -/
theorem sameBytes_setReg (σ : Store) : SameBytes σ s (setReg s n v) :=
  memRead_congr (mem_setReg s n v σ) (by unfold setReg; split <;> rfl)

theorem sameEntropy_setReg : SameEntropy s (setReg s n v) := by
  unfold setReg
  split <;> exact ⟨rfl, rfl⟩

theorem sameOutside_setReg : SameOutside s (setReg s n v) := by
  unfold setReg
  split <;> exact ⟨rfl, rfl, rfl⟩

/-! ## Accesses of an idle block -/

section
variable {s}

theorem regRead_of_idle (how : Word → HostDatum) (h : s.idle) :
    regRead n how s = .next { s with hostRead := some (how (regValue s n)) } := by
  simp [regRead, show s.busy = false from h]

theorem hostAct_regRead_of_idle (h : s.idle) :
    hostAct (.regRead n) s = .next { s with hostRead := some (.reg (regValue s n)) } :=
  regRead_of_idle n .reg h

theorem hostAct_regWrite_of_idle {n : Nat} (h : s.idle) (hn : n ≠ 0) :
    hostAct (.regWrite n v) s = .next (setReg s n v) := by
  simp [hostAct, hostActWith, regWrite, show s.busy = false from h, hn]

/-- A command word written to `CMD` of an idle block runs its command (R28, R99). -/
theorem hostAct_regWrite_zero_of_idle {v : Word} {i : Instr} (h : s.idle) (hd : decode v = .ok i) :
    hostAct (.regWrite 0 v) s = exec i s := by
  simp [hostAct, hostActWith, regWrite, issue, show s.busy = false from h, hd]

end

/-! ## Accesses of a busy block (R270, R271; log 12) -/

section
variable {s}

theorem hostAct_regWrite_of_busy (h : s.busy = true) :
    hostAct (.regWrite n v) s = .refused (if n = 0 then .commandWhileBusy else .hostAccessWhileBusy) := by
  simp [hostAct, hostActWith, regWrite, h]

theorem regRead_of_busy {n : Nat} (how : Word → HostDatum) (h : s.busy = true) (hn : n ≠ 1) :
    regRead n how s = .refused .hostAccessWhileBusy := by
  simp [regRead, h, hn]

/-- `STATUS` may be read at any time (R43). -/
theorem regRead_status (how : Word → HostDatum) :
    regRead 1 how s = .next { s with hostRead := some (how (s.status &&& 0x173)) } := by
  simp [regRead]

theorem storeAccess_of_busy (c : Params) (reach : List (Store × Nat)) (access : State → State)
    (h : s.busy = true) : storeAccess c reach access s = .refused .hostAccessWhileBusy := by
  simp [storeAccess, h]

end

/-! ## The register window on the bus (R61, R63) -/

/-- The little-endian bytes of a word are the word again (R61). -/
@[simp] theorem wordOfBytes_extract :
    wordOfBytes (v.extractLsb' 0 8) (v.extractLsb' 8 8) (v.extractLsb' 16 8) (v.extractLsb' 24 8) = v := by
  have join := @BitVec.extractLsb'_append_extractLsb'_eq_extractLsb'
  rw [wordOfBytes, join (by decide), join (by decide), join (by decide)]
  exact BitVec.extractLsb'_eq_self

/-- Four bytes written at offset `4 * n` are a write of their word to register `n`. -/
theorem hostAct_busWrite_bytes (b0 b1 b2 b3 : Byte) :
    hostAct (.busWrite (4 * n) [b0, b1, b2, b3]) s = hostAct (.regWrite n (wordOfBytes b0 b1 b2 b3)) s := by
  simp [hostAct, hostActWith, busWrite, busAligned]

theorem hostAct_busWrite_word : hostAct (.busWrite (4 * n) (bytesOfWord v)) s = hostAct (.regWrite n v) s := by
  rw [bytesOfWord, hostAct_busWrite_bytes, wordOfBytes_extract]

theorem hostAct_busRead_word :
    hostAct (.busRead (4 * n) 4) s = regRead n (fun w => .bus (bytesOfWord w)) s := by
  simp [hostAct, hostActWith, busRead, busAligned]

/-- The bytes of one command and nothing after it are the four bytes of its word (R61). -/
theorem decodeBytes_eq_ok_nil {bytes : List Byte} {i : Instr} (h : decodeBytes bytes = .ok (i, [])) :
    ∃ b0 b1 b2 b3, bytes = [b0, b1, b2, b3] ∧ decode (wordOfBytes b0 b1 b2 b3) = .ok i := by
  unfold decodeBytes at h
  split at h
  · next b0 b1 b2 b3 rest =>
    split at h
    · next j hj =>
      cases h
      exact ⟨b0, b1, b2, b3, rfl, hj⟩
    · cases h
  · cases h

/-- A bus access of another form is refused (R63, R273). -/
theorem busAligned_eq_false {offset width : Nat} (h : width ≠ 4 ∨ offset % 4 ≠ 0) :
    busAligned offset width = false := by
  simp only [busAligned, Bool.and_eq_false_iff, beq_eq_false_iff_ne]
  exact h

/-! ## The step around an action (log 1) -/

theorem step_of_script_nil (h : s.script = []) : step s = .next s := by
  simp [step, nextAction, nextActionWith, h]

theorem step_of_script_cons {a : HostAction} {rest : List HostAction} (h : s.script = a :: rest) :
    step s = hostAct a { s with script := rest } := by
  simp [step, nextAction, nextActionWith, h, hostAct]

/-! ## The obligations about the port -/

/-- Settles O4: the action is taken off the script, and the write to `CMD` decodes to `i`. -/
theorem stepRunsTheDecodedCommand : Obligations.StepRunsTheDecodedCommand := by
  refine ⟨fun s rest i hidle => ⟨fun w hs hd => ?_, fun bytes hs hd => ?_, step_of_script_nil⟩,
    fun i s => by rw [execWith_reference], fun s => by rw [stepWith_reference]⟩
  · rw [step_of_script_cons s hs]
    exact hostAct_regWrite_zero_of_idle (s := { s with script := rest }) hidle hd
  · obtain ⟨b0, b1, b2, b3, rfl, hw⟩ := decodeBytes_eq_ok_nil hd
    rw [step_of_script_cons s hs, ← Nat.mul_zero 4, hostAct_busWrite_bytes]
    exact hostAct_regWrite_zero_of_idle (s := { s with script := rest }) hidle hw

/-- Settles O6: the value listed beside each of the eight numbers is the register's. -/
theorem regReadReturnsTheRegister : Obligations.RegReadReturnsTheRegister := by
  intro s n v hidle hmem
  have hv : v = regValue s n := by
    simp only [List.mem_cons, Prod.mk.injEq, List.not_mem_nil, or_false] at hmem
    rcases hmem with ⟨rfl, rfl⟩ | ⟨rfl, rfl⟩ | ⟨rfl, rfl⟩ | ⟨rfl, rfl⟩ | ⟨rfl, rfl⟩ | ⟨rfl, rfl⟩ | ⟨rfl, rfl⟩ |
      ⟨rfl, rfl⟩ <;> rfl
  rw [hv]
  exact hostAct_regRead_of_idle n hidle

/-- Settles O7: the write is `setReg`, which sets one operand register and ignores the read-only ones. -/
theorem regWriteSetsOneOperandRegister : Obligations.RegWriteSetsOneOperandRegister := by
  refine fun s n v hidle => ⟨fun h2 h6 => ⟨setReg s n v, hostAct_regWrite_of_idle v hidle (by omega), ?_⟩, fun h => ?_⟩
  · exact ⟨regValue_setReg_self s n v h2 h6, fun m hm => regValue_setReg_of_ne s n v hm,
      sameBytes_setReg s n v, sameEntropy_setReg s n v, sameOutside_setReg s n v⟩
  · rw [hostAct_regWrite_of_idle v hidle (by omega), setReg_of_not_operand s v (by omega)]

/-- Settles O8: a reserved number reads 0 and is no operand register. -/
theorem reservedRegistersReadZeroAndIgnoreWrites : Obligations.ReservedRegistersReadZeroAndIgnoreWrites := by
  refine fun s n v hidle hn => ⟨?_, ?_⟩
  · rw [hostAct_regRead_of_idle n hidle, regValue_of_reserved s n hn]
  · rw [hostAct_regWrite_of_idle v hidle (by omega), setReg_of_not_operand s v (by omega)]

/-- Settles O9: every access tests `BUSY` first, but a read of `STATUS`. -/
theorem busyBlockRefusesTheHost : Obligations.BusyBlockRefusesTheHost := by
  intro s hb
  refine ⟨fun w => hostAct_regWrite_of_busy 0 w hb, fun w => ?_, fun n v hn => ?_, fun n v => ?_, fun n hn => ?_,
    fun n hn => regRead_of_busy _ hb hn, fun σ a => ?_, fun σ a S => ?_, fun σ τ n => ?_, regRead_status _, ?_⟩
  · simp [hostAct, hostActWith, commandIfNone, hb]
  · rw [hostAct_regWrite_of_busy n v hb, if_neg hn]
  · rw [hostAct_busWrite_word, hostAct_regWrite_of_busy n v hb]
  · rw [hostAct_busRead_word, regRead_of_busy _ hb hn]
  · simp [hostAct, hostActWith, storeRead, storeAccess_of_busy _ _ _ hb]
  · simp [hostAct, hostActWith, fill, storeAccess_of_busy _ _ _ hb]
  · simp [hostAct, hostActWith, copy, storeAccess_of_busy _ _ _ hb]
  · exact (hostAct_busRead_word s 1).trans (regRead_status _)

/-- Settles O10: an access of another form fails the test of the form, an aligned word is the register access. -/
theorem busWindowTakesAlignedWordsOnly : Obligations.BusWindowTakesAlignedWordsOnly := by
  refine fun s => ⟨fun offset data h => ?_, fun offset width h => ?_, fun n v => hostAct_busWrite_word s n v,
    fun n hidle => ?_⟩
  · simp [hostAct, hostActWith, busWrite, busAligned_eq_false h]
  · simp [hostAct, hostActWith, busRead, busAligned_eq_false h]
  · rw [hostAct_busRead_word, regRead_of_idle n _ hidle]

/-- Settles O15: every register field is 0 at reset, and no store lists a byte. -/
theorem resetValues : Obligations.ResetValues := by
  refine ⟨fun n => ?_, rfl, rfl, rfl, rfl, rfl, fun σ a => ?_⟩
  · unfold regValue
    split <;> rfl
  · cases σ <;> rfl

end Sys2Proof.Machine
end

section
/-! PROOFS, family 20_memory: where a command writes (R70, R75). Each command leaves alone everything but the first
bytes of its output store, its output registers, `STATUS` and the entropy port. -/

namespace Sys2Proof.Machine

variable {c : Params} {s t u : State} {σ : Store} {n : Nat}

/-! ## Fields a string of writes leaves alone -/

@[simp] theorem writeBytes_paylen (a : Nat) (S : List Byte) : (writeBytes s σ a S).paylen = s.paylen := by
  obtain ⟨m, h⟩ := writeBytes_eq_setMem s σ S a
  simp [h]

@[simp] theorem writeBytes_msglen (a : Nat) (S : List Byte) : (writeBytes s σ a S).msglen = s.msglen := by
  obtain ⟨m, h⟩ := writeBytes_eq_setMem s σ S a
  simp [h]

theorem sameSetup_writeBytes (a : Nat) (S : List Byte) : SameSetup s (writeBytes s σ a S) := by
  obtain ⟨m, h⟩ := writeBytes_eq_setMem s σ S a
  simp [h, SameSetup]

theorem sameOutside_writeBytes (a : Nat) (S : List Byte) : SameOutside s (writeBytes s σ a S) := by
  obtain ⟨m, h⟩ := writeBytes_eq_setMem s σ S a
  simp [h, SameOutside]

theorem sameEntropy_writeBytes (a : Nat) (S : List Byte) : SameEntropy s (writeBytes s σ a S) := by
  obtain ⟨m, h⟩ := writeBytes_eq_setMem s σ S a
  simp [h, SameEntropy]

/-! ## The frame the four commands share -/

/-- From `s` to `t` no byte changed but the first `n` of store `σ`, and neither did the registers no command writes or
the model's own fields. -/
structure WritesOnly (σ : Store) (n : Nat) (s t : State) : Prop where
  setup : SameSetup s t
  others : ∀ τ, τ ≠ σ → SameBytes τ s t
  beyond : SameBytesFrom n σ s t
  outside : SameOutside s t

namespace WritesOnly

theorem refl (s : State) : WritesOnly σ n s s :=
  ⟨⟨rfl, rfl, rfl⟩, fun _ _ _ => rfl, fun _ _ => rfl, ⟨rfl, rfl, rfl⟩⟩

theorem trans (h : WritesOnly σ n s t) (h' : WritesOnly σ n t u) : WritesOnly σ n s u := by
  obtain ⟨⟨hw, hh, hp⟩, others, beyond, hr, hd, hs⟩ := h
  obtain ⟨⟨hw', hh', hp'⟩, others', beyond', hr', hd', hs'⟩ := h'
  exact ⟨⟨hw'.trans hw, hh'.trans hh, hp'.trans hp⟩, fun τ hτ a => (others' τ hτ a).trans (others τ hτ a),
    fun a ha => (beyond' a ha).trans (beyond a ha), hr'.trans hr, hd'.trans hd, hs'.trans hs⟩

/-- An update that changes no byte at all. -/
theorem of_sameBytes (hsetup : SameSetup s t) (hbytes : ∀ τ, SameBytes τ s t) (hout : SameOutside s t) :
    WritesOnly σ n s t :=
  ⟨hsetup, fun τ _ => hbytes τ, fun a _ => hbytes σ a, hout⟩

theorem setStatus (h : WritesOnly σ n s t) (v : Word) : WritesOnly σ n s (t.setStatus v) :=
  h.trans (of_sameBytes ⟨rfl, rfl, rfl⟩ (memRead_setStatus t v) ⟨rfl, rfl, rfl⟩)

theorem setCur (h : WritesOnly σ n s t) (v : Nat) : WritesOnly σ n s (t.setCur v) :=
  h.trans (of_sameBytes ⟨rfl, rfl, rfl⟩ (memRead_setCur t v) ⟨rfl, rfl, rfl⟩)

theorem setPaylen (h : WritesOnly σ n s t) (v : Nat) : WritesOnly σ n s (t.setPaylen v) :=
  h.trans (of_sameBytes ⟨rfl, rfl, rfl⟩ (memRead_setPaylen t v) ⟨rfl, rfl, rfl⟩)

theorem setMsglen (h : WritesOnly σ n s t) (v : Nat) : WritesOnly σ n s (t.setMsglen v) :=
  h.trans (of_sameBytes ⟨rfl, rfl, rfl⟩ (memRead_setMsglen t v) ⟨rfl, rfl, rfl⟩)

theorem rngConsume (h : WritesOnly σ n s t) : WritesOnly σ n s (rngConsume t) :=
  h.trans (of_sameBytes ⟨rfl, rfl, rfl⟩ (memRead_rngConsume t) ⟨rfl, rfl, rfl⟩)

theorem writeBytes (h : WritesOnly σ n s t) {S : List Byte} (hS : S.length ≤ n) :
    WritesOnly σ n s (writeBytes t σ 0 S) := by
  refine h.trans ⟨sameSetup_writeBytes 0 S, fun τ hτ a => ?_, fun a ha => ?_, sameOutside_writeBytes 0 S⟩
  · rw [memRead_writeBytes, if_neg (fun hin => hτ hin.1)]
  · rw [memRead_writeBytes, if_neg (by omega)]

end WritesOnly

/-- A register holds every number below `2^32` (R21). -/
theorem toNat_word (h : n < 4294967296) : (BitVec.ofNat 32 n).toNat = n :=
  (BitVec.toNat_ofNat n 32).trans (Nat.mod_eq_of_lt h)

/-! ## A command whose premise holds completes -/

theorem execWith_of_premise {i : Instr} (h : premise c s i = none) : execWith c i s = .next (nextState c s i) := by
  rw [execWith_eq, h]

theorem exec_of_premise {i : Instr} (h : premise Config.reference s i = none) :
    exec i s = .next (nextState Config.reference s i) := by
  rw [exec_eq, h]

end Sys2Proof.Machine
end

section
/-! PROOFS, family 20_memory: the slots as bytes of a pixel store (R64, R105, R107), and what `EMBED` reads and writes
(R75, R163, R172). -/

namespace Sys2Proof.Machine

variable {c : Params} {s s' : State}

/-! ## Slots (R105, R107) -/

/-- A slot lies inside an image of `N` pixels exactly when it is one of the first `3 * N` (R105, R106). -/
theorem slotAddr_lt_iff (N k : Nat) : slotAddr k < 4 * N ↔ k < 3 * N := by
  rw [slotAddr_eq]
  omega

/-- The pixel of a slot is the one in the slot's column and row (R64, R105). -/
theorem pixelIndex_slot (width k : Nat) : pixelIndex width (slotColumn width k) (slotRow width k) = slotPixel k :=
  Nat.div_add_mod' (slotPixel k) width

/-- Settles O22: slot `k` is channel `k mod 3` of pixel `k div 3`. -/
theorem slotsAreTheColourBytes : Obligations.SlotsAreTheColourBytes := by
  refine ⟨fun j k => slotAddr_inj, fun k => ?_, slotAddr_lt_iff, fun N i hi hc => ?_, fun width k => ?_⟩
  · rw [slotAddr_eq]
    omega
  · exact ⟨3 * (i / 4) + i % 4, by omega, (slotAddr_eq_iff _ _).2 ⟨by omega, rfl⟩⟩
  · rw [pixelIndex_slot]
    rfl

/-! ## The frame of `EMBED` -/

theorem embedNext_of_not_fits (hf : ¬ fits s.paylen.toNat (pixelCount s) = true) :
    embedNext s = (s.setCur 0).setStatus 0x012 := by
  rw [embedNext, if_neg hf]

/-- `EMBED` succeeds exactly when the payload fits (R168). -/
theorem embedNext_status_eq (s : State) :
    (embedNext s).status = if fits s.paylen.toNat (pixelCount s) = true then 0x002 else 0x012 := by
  unfold embedNext
  split <;> rfl

/-- `CUR` after `EMBED`: the length of the frame, or 0 (R27). -/
theorem embedNext_cur_eq (s : State) :
    (embedNext s).cur =
      if fits s.paylen.toNat (pixelCount s) = true then BitVec.ofNat 32 (frameBits s.paylen.toNat) else 0 := by
  split
  · next hf =>
    obtain ⟨m, hm⟩ := embedNext_of_fits s hf
    rw [hm]
    rfl
  · next hf =>
    rw [embedNext_of_not_fits hf]
    rfl

theorem embedNext_status_eq_success : (embedNext s).status = 0x002 ↔ fits s.paylen.toNat (pixelCount s) = true := by
  rw [embedNext_status_eq]
  split <;> simp_all

/-- Whatever its outcome, `EMBED` replaces `DST`, `CUR` and `STATUS` alone. -/
theorem embedNext_eq_setMem (s : State) :
    ∃ m v w, embedNext s = ((s.setMem .dst m).setCur v).setStatus w := by
  by_cases hf : fits s.paylen.toNat (pixelCount s) = true
  · obtain ⟨m, hm⟩ := embedNext_of_fits s hf
    exact ⟨m, _, _, hm⟩
  · exact ⟨s.mem .dst, 0, 0x012, by rw [embedNext_of_not_fits hf, setMem_mem]⟩

@[simp] theorem embedNext_paylen : (embedNext s).paylen = s.paylen := by
  obtain ⟨m, v, w, h⟩ := embedNext_eq_setMem s
  simp [h]

@[simp] theorem embedNext_msglen : (embedNext s).msglen = s.msglen := by
  obtain ⟨m, v, w, h⟩ := embedNext_eq_setMem s
  simp [h]

theorem sameEntropy_embedNext (s : State) : SameEntropy s (embedNext s) := by
  obtain ⟨m, v, w, h⟩ := embedNext_eq_setMem s
  simp [h, SameEntropy]

/-- Every slot of a payload that fits lies in the image, so `EMBED` writes `DST[0 .. 4N)` alone (R163). -/
theorem writesOnly_embedNext (s : State) : WritesOnly .dst (4 * pixelCount s) s (embedNext s) := by
  by_cases hf : fits s.paylen.toNat (pixelCount s) = true
  · obtain ⟨m, v, w, hm⟩ := embedNext_eq_setMem s
    obtain ⟨-, hT⟩ := (fits_iff _ _).1 hf
    refine ⟨by simp [hm, SameSetup], fun τ hτ a => ?_, fun a ha => ?_, by simp [hm, SameOutside]⟩
    · rw [memRead_embedNext_of_fits s hf]
      simp [hτ]
    · rw [memRead_embedNext_of_fits s hf, frameBits_eq, if_neg (by omega), if_neg (by omega)]
  · rw [embedNext_of_not_fits hf]
    exact ((WritesOnly.refl s).setCur 0).setStatus _

/-- Settles O26: the next state of `EMBED` replaces `DST[0 .. 4N)`, `CUR` and `STATUS`, and only `CUR` and `STATUS` when
the payload does not fit. -/
theorem embedFrame : Obligations.EmbedFrame := by
  intro s t hx
  obtain ⟨-, rfl⟩ := exec_next hx
  obtain ⟨setup, others, beyond, outside⟩ := writesOnly_embedNext s
  refine ⟨setup, embedNext_paylen, embedNext_msglen, others, beyond, fun hst => ?_, sameEntropy_embedNext s, outside⟩
  rw [nextState, embedNext_of_not_fits (mt embedNext_status_eq_success.2 hst)]
  exact ⟨fun a => by simp, rfl⟩

/-! ## `EMBED` is a function of its row -/

/-- The image a successful `EMBED` leaves depends on the payload and on the source image alone. -/
theorem memRead_embedNext_congr {i : Nat} (hN : pixelCount s' = pixelCount s) (hL : s'.paylen = s.paylen)
    (hP : payload s' = payload s) (hsrc : memRead s' .src i = memRead s .src i) (hi : i < 4 * pixelCount s)
    (hf : fits s.paylen.toNat (pixelCount s) = true) :
    memRead (embedNext s') .dst i = memRead (embedNext s) .dst i := by
  have hf' : fits s'.paylen.toNat (pixelCount s') = true := by rwa [hN, hL]
  rw [memRead_embedNext_of_fits s' hf', memRead_embedNext_of_fits s hf, hN, hL, hP, hsrc]
  simp [hi]

/-- Settles O30: premise, `STATUS`, `CUR` and image are each a function of the row of R75. -/
theorem embedIsAFunctionOfItsRow : Obligations.EmbedIsAFunctionOfItsRow := by
  intro s s' t hw hh hL hsrc hpay hx
  obtain ⟨hp, rfl⟩ := exec_next hx
  have hN : pixelCount s' = pixelCount s := by rw [pixelCount, pixelCount, hw, hh]
  have hP : payload s' = payload s := by
    rw [payload, payload, hL]
    exact readBytes_congr fun i hi => by simpa using hpay i hi
  have hp' : premise Config.reference s' .embed = none := by
    rw [← hp]
    simp only [premise, embedPremise, hN, hL]
  refine ⟨_, exec_of_premise hp', ?_, ?_, fun hst i hi => ?_⟩
  · simp only [nextState, embedNext_status_eq, hN, hL]
  · simp only [nextState, embedNext_cur_eq, hN, hL]
  · exact memRead_embedNext_congr hN hL hP (hsrc i hi) hi (embedNext_status_eq_success.1 hst)

end Sys2Proof.Machine
end

section
/-! PROOFS, family 20_memory: what `EXTRACT` writes, and each of its outcomes in every configuration (R75, R165; log
10). -/

namespace Sys2Proof.Machine

variable {c : Params} {s : State}

/-! ## What the header claims -/

theorem headerClaim_of_parse_none (hp : c.hdrParse (gatherHeader s) = none) : headerClaim c s = none := by
  simp [headerClaim, hp]

section
variable {m : Int} (hp : c.hdrParse (gatherHeader s) = some m)
include hp

theorem headerClaim_of_implausible (h : m ≤ 0 ∨ m > 1000000) : headerClaim c s = none := by
  simp [headerClaim, hp, h]

theorem headerClaim_of_overrun_empty (h : 64 + 8 * m > 3 * (pixelCount s : Int))
    (ho : c.extractOverrun = .emptyPayload) : headerClaim c s = none := by
  simp [headerClaim, hp, slots, h, ho]

theorem headerClaim_of_overrun_partial (hm : ¬ (m ≤ 0 ∨ m > 1000000)) (h : 64 + 8 * m > 3 * (pixelCount s : Int))
    (ho : c.extractOverrun = .partialPayload) : headerClaim c s = some ((3 * pixelCount s - 64) / 8) := by
  simp [headerClaim, hp, slots, hm, h, ho]

theorem headerClaim_of_within (hm : ¬ (m ≤ 0 ∨ m > 1000000)) (h : ¬ 64 + 8 * m > 3 * (pixelCount s : Int)) :
    headerClaim c s = some m.toNat := by
  simp [headerClaim, hp, slots, hm, h]

end

/-! ## The three next states of `EXTRACT` -/

theorem extractNext_of_small (h0 : 3 * pixelCount s < 64) :
    extractNext c s = ((s.setCur 0).setPaylen 0).setStatus 0x002 :=
  if_pos h0

theorem extractNext_of_claim_none (h0 : ¬ 3 * pixelCount s < 64) (hc : headerClaim c s = none) :
    extractNext c s = ((s.setCur 64).setPaylen 0).setStatus 0x002 := by
  rw [extractNext, if_neg (show ¬ slots (pixelCount s) < Config.headerBits from h0), hc]

theorem extractNext_of_claim_some {m : Nat} (h0 : ¬ 3 * pixelCount s < 64) (hc : headerClaim c s = some m) :
    extractNext c s =
      (((writeBytes s .pay 0 (gatherPayload s m)).setCur (64 + 8 * m)).setPaylen m).setStatus 0x002 := by
  rw [extractNext, if_neg (show ¬ slots (pixelCount s) < Config.headerBits from h0), hc]

/-- The one inversion of `EXTRACT`: it returns nothing, or it writes at most `EXTRACT_MAX` bytes to `PAY`. -/
theorem extractNext_cases (c : Params) (s : State) :
    (∃ v, extractNext c s = ((s.setCur v).setPaylen 0).setStatus 0x002) ∨
    ∃ m v S, m ≤ 1000000 ∧ S.length = m ∧
      extractNext c s = (((writeBytes s .pay 0 S).setCur v).setPaylen m).setStatus 0x002 := by
  by_cases h0 : 3 * pixelCount s < 64
  · exact .inl ⟨0, extractNext_of_small h0⟩
  · cases hc : headerClaim c s with
    | none => exact .inl ⟨64, extractNext_of_claim_none h0 hc⟩
    | some m =>
      exact .inr ⟨m, _, _, (headerClaim_le c s (by omega) hc).1, length_gatherPayload s m,
        extractNext_of_claim_some h0 hc⟩

/-! ## The frame of `EXTRACT` -/

@[simp] theorem extractNext_msglen : (extractNext c s).msglen = s.msglen := by
  obtain ⟨v, h⟩ | ⟨m, v, S, -, -, h⟩ := extractNext_cases c s <;> simp [h]

theorem sameEntropy_extractNext (c : Params) (s : State) : SameEntropy s (extractNext c s) := by
  obtain ⟨v, h⟩ | ⟨m, v, S, -, -, h⟩ := extractNext_cases c s
  · rw [h]
    exact ⟨rfl, rfl⟩
  · rw [h]
    exact sameEntropy_writeBytes 0 S

/-- `EXTRACT` writes `PAY[0 .. new PAYLEN)` alone. -/
theorem writesOnly_extractNext (c : Params) (s : State) :
    WritesOnly .pay (extractNext c s).paylen.toNat s (extractNext c s) := by
  obtain ⟨v, h⟩ | ⟨m, v, S, hm, hS, h⟩ := extractNext_cases c s
  · rw [h]
    exact (((WritesOnly.refl s).setCur v).setPaylen 0).setStatus _
  · have hlen : (extractNext c s).paylen.toNat = m := by
      rw [h]
      exact toNat_word (by omega)
    rw [hlen, h]
    exact ((((WritesOnly.refl s).writeBytes hS.le).setCur v).setPaylen m).setStatus _

/-! ## Its outcome in every configuration -/

/-- Byte `j` of the gathered payload (R165 step 3). -/
theorem getD_gatherPayload {m j : Nat} (h : j < m) : (gatherPayload s m).getD j 0 = gatherByte s (64 + 8 * j) := by
  simp [gatherPayload, h]

/-- What `EXTRACT` leaves when the header claims `m` bytes. -/
theorem extractNext_returns {m : Nat} (h0 : ¬ 3 * pixelCount s < 64) (hc : headerClaim c s = some m) :
    ∃ d, let t : State :=
        { s with pay := d, paylen := BitVec.ofNat 32 m, cur := BitVec.ofNat 32 (64 + 8 * m), status := 0x002 }
      extractNext c s = t ∧ t.paylen.toNat = m ∧ t.cur.toNat = 64 + 8 * m ∧
      (∀ j, j < m → memRead t .pay j = gatherByte s (64 + 8 * j)) ∧ SameBytesFrom m .pay s t := by
  obtain ⟨hle, -⟩ := headerClaim_le c s (by omega) hc
  obtain ⟨d, hd⟩ := writeBytes_eq_setMem s .pay (gatherPayload s m) 0
  have hpay : ∀ j, memRead (s.setMem .pay d) .pay j =
      if j < m then gatherByte s (64 + 8 * j) else memRead s .pay j := by
    intro j
    rw [← hd, memRead_writeBytes]
    simp only [true_and, Nat.zero_le, Nat.zero_add, Nat.sub_zero, length_gatherPayload]
    split
    · next hj => exact getD_gatherPayload hj
    · rfl
  refine ⟨d, ?_, toNat_word (by omega), toNat_word (by omega),
    fun j hj => (hpay j).trans (if_pos hj), fun j hj => (hpay j).trans (if_neg (by omega))⟩
  rw [extractNext_of_claim_some h0 hc, hd]
  rfl

/-- Settles O32: `EXTRACT` writes `PAY[0 .. new PAYLEN)` alone, and each branch of R165 decides what the header
claims. -/
theorem extractFrame : Obligations.ExtractFrame := by
  refine ⟨fun s t hx => ?_, fun c s hN => ?_⟩
  · obtain ⟨-, rfl⟩ := exec_next hx
    obtain ⟨setup, others, beyond, outside⟩ := writesOnly_extractNext Config.reference s
    exact ⟨setup, extractNext_msglen, others, beyond, sameEntropy_extractNext _ s, outside⟩
  · intro N empty returns
    have hx : execWith c .extract s = .next (extractNext c s) :=
      execWith_of_premise ((extractPremise_eq_none c s).2 hN)
    have hempty : ¬ 3 * N < 64 → headerClaim c s = none → empty 64 := fun h0 hc =>
      hx.trans (congrArg _ (extractNext_of_claim_none h0 hc))
    have hreturns : ∀ m, ¬ 3 * N < 64 → headerClaim c s = some m → returns m := fun m h0 hc => by
      obtain ⟨d, hd, rest⟩ := extractNext_returns h0 hc
      exact ⟨d, hx.trans (congrArg _ hd), rest⟩
    split
    · next h0 => exact hx.trans (congrArg _ (extractNext_of_small h0))
    · next h0 =>
      split
      · next hp => exact hempty h0 (headerClaim_of_parse_none hp)
      · next m hp =>
        split
        · next hm => exact hempty h0 (headerClaim_of_implausible hp hm)
        · next hm =>
          split
          · next hover =>
            split
            · next ho => exact hempty h0 (headerClaim_of_overrun_empty hp hover ho)
            · next ho => exact hreturns _ h0 (headerClaim_of_overrun_partial hp hm hover ho)
          · next hover => exact hreturns _ h0 (headerClaim_of_within hp hm hover)

end Sys2Proof.Machine
end

section
/-! PROOFS, family 20_memory: `ENCRYPT` and `DECRYPT` as functions of what they read, the password, the message or
payload and the draw (R136, R137, R139), each followed by one of two ends. -/

namespace Sys2Proof.Machine

variable {c : Params} {s s' : State}

theorem emptyPassword_iff : emptyPassword s = true ↔ s.pwdlen = 0 := by
  simp [emptyPassword]

/-- The password is empty exactly when its length is 0 (R26). -/
theorem password_eq_nil : password s = [] ↔ s.pwdlen = 0 := by
  rw [← List.length_eq_zero_iff, length_password, ← BitVec.toNat_inj]
  rfl

/-! ## The bytes each end delivers -/

@[simp] theorem readBytes_setPaylen (v : Nat) (σ : Store) (a n : Nat) :
    readBytes (s.setPaylen v) σ a n = readBytes s σ a n := by
  simp [readBytes]

@[simp] theorem readBytes_setMsglen (v : Nat) (σ : Store) (a n : Nat) :
    readBytes (s.setMsglen v) σ a n = readBytes s σ a n := by
  simp [readBytes]

section
variable {S : List Byte} (h : S.length < 4294967296)
include h

theorem toNat_paylen_deliverPayload : (deliverPayload S s).paylen.toNat = S.length := toNat_word h

theorem toNat_msglen_deliverMessage : (deliverMessage S s).msglen.toNat = S.length := toNat_word h

theorem payload_deliverPayload : payload (deliverPayload S s) = S := by
  rw [payload, toNat_paylen_deliverPayload h]
  simp [deliverPayload, finish_eq]

theorem message_deliverMessage : message (deliverMessage S s) = S := by
  rw [message, toNat_msglen_deliverMessage h]
  simp [deliverMessage, finish_eq]

/-- The end of a successful `ENCRYPT` writes `PAY[0 .. new PAYLEN)` alone. -/
theorem writesOnly_deliverPayload : WritesOnly .pay (deliverPayload S s).paylen.toNat s (deliverPayload S s) := by
  rw [toNat_paylen_deliverPayload h]
  exact (((WritesOnly.refl s).writeBytes le_rfl).setPaylen _).setStatus _

/-- The end of a successful `DECRYPT` writes `MSG[0 .. new MSGLEN)` alone. -/
theorem writesOnly_deliverMessage : WritesOnly .msg (deliverMessage S s).msglen.toNat s (deliverMessage S s) := by
  rw [toNat_msglen_deliverMessage h]
  exact (((WritesOnly.refl s).writeBytes le_rfl).setMsglen _).setStatus _

end

/-! ## `DECRYPT` -/

/-- What `DECRYPT` makes of a password and a payload (R137): the value of `STATUS` it raises, or the message. -/
def decryptResult (c : Params) (pwd record : List Byte) : Except Word (List Byte) :=
  if pwd = [] then .ok record
  else if record.length < c.nonceSize then .error 0x132
  else
    match openRecord c pwd record with
    | none => .error 0x032
    | some p => .ok p

/-- The two ends of `DECRYPT` (R137, R224). -/
def decryptEnd (s : State) : Except Word (List Byte) → State
  | .error v => s.setStatus v
  | .ok p => deliverMessage p s

/-- `DECRYPT` reads the password and the payload, and delivers what it makes of them. -/
theorem decryptNext_eq (c : Params) (s : State) :
    decryptNext c s = decryptEnd s (decryptResult c (password s) (payload s)) := by
  unfold decryptNext decryptResult
  simp only [emptyPassword_iff, password_eq_nil, length_payload]
  split
  · simp [decryptEnd, deliverMessage, finish_eq]
  · split
    · rfl
    · cases openRecord c (password s) (payload s) <;> rfl

/-- `DECRYPT` raises, or its message is no longer than its payload (R134, R138). -/
theorem decryptResult_cases (c : Params) (pwd record : List Byte) :
    (∃ v, v ≠ 0x002 ∧ decryptResult c pwd record = .error v) ∨
    ∃ p, p.length ≤ record.length ∧ decryptResult c pwd record = .ok p := by
  unfold decryptResult
  split
  · exact .inr ⟨record, le_rfl, rfl⟩
  · split
    · exact .inl ⟨0x132, by decide, rfl⟩
    · cases ho : openRecord c pwd record with
      | none => exact .inl ⟨0x032, by decide, rfl⟩
      | some p =>
        have hlen := length_openRecord c ho
        exact .inr ⟨p, by omega, rfl⟩

/-- The one inversion of `DECRYPT`: it raises and changes `STATUS` alone, or it delivers a message that its length
register can hold. -/
theorem decryptNext_cases (c : Params) (s : State) :
    (∃ v, v ≠ 0x002 ∧ decryptResult c (password s) (payload s) = .error v ∧ decryptNext c s = s.setStatus v) ∨
    ∃ p, p.length < 4294967296 ∧ decryptResult c (password s) (payload s) = .ok p ∧
      decryptNext c s = deliverMessage p s := by
  rw [decryptNext_eq]
  obtain ⟨v, hv, hr⟩ | ⟨p, hle, hr⟩ := decryptResult_cases c (password s) (payload s)
  · exact .inl ⟨v, hv, hr, by rw [hr]; rfl⟩
  · rw [length_payload] at hle
    exact .inr ⟨p, by omega, hr, by rw [hr]; rfl⟩

@[simp] theorem decryptNext_paylen : (decryptNext c s).paylen = s.paylen := by
  obtain ⟨v, -, -, h⟩ | ⟨p, -, -, h⟩ := decryptNext_cases c s <;> simp [h, deliverMessage, finish_eq]

theorem sameEntropy_decryptNext (c : Params) (s : State) : SameEntropy s (decryptNext c s) := by
  obtain ⟨v, -, -, h⟩ | ⟨p, -, -, h⟩ := decryptNext_cases c s
  · rw [h]
    exact ⟨rfl, rfl⟩
  · rw [h]
    exact sameEntropy_writeBytes 0 p

/-- `DECRYPT` writes `MSG[0 .. new MSGLEN)` alone. -/
theorem writesOnly_decryptNext (c : Params) (s : State) :
    WritesOnly .msg (decryptNext c s).msglen.toNat s (decryptNext c s) := by
  obtain ⟨v, -, -, h⟩ | ⟨p, hp, -, h⟩ := decryptNext_cases c s
  · rw [h]
    exact (WritesOnly.refl s).setStatus v
  · rw [h]
    exact writesOnly_deliverMessage hp

/-- Settles O39: `DECRYPT` writes `MSG[0 .. new MSGLEN)` alone, and `STATUS` alone when it raises. -/
theorem decryptFrame : Obligations.DecryptFrame := by
  intro s t hx
  obtain ⟨-, rfl⟩ := exec_next hx
  obtain ⟨setup, others, beyond, outside⟩ := writesOnly_decryptNext Config.reference s
  refine ⟨setup, decryptNext_paylen, decryptNext_cur _ s, others, beyond, fun hst => ?_,
    sameEntropy_decryptNext _ s, outside⟩
  obtain ⟨v, -, -, h⟩ | ⟨p, -, -, h⟩ := decryptNext_cases Config.reference s
  · rw [nextState, h]
    exact ⟨fun a => by simp, rfl⟩
  · rw [nextState, h] at hst
    exact absurd rfl hst

/-! ## `ENCRYPT` -/

/-- What `ENCRYPT` makes of a password, a message and the answer of the entropy port (R136): the payload, or none when
it raises. -/
def encryptResult (c : Params) (pwd msg : List Byte) (answer : RngAnswer c.nonceSize) : Option (List Byte) :=
  if pwd = [] then some msg
  else
    match answer with
    | .fail => none
    | .bytes nonce => some (sealRecord c pwd nonce.toList msg)

/-- The two ends of `ENCRYPT` (R136, R224). -/
def encryptEnd (s : State) : Option (List Byte) → State
  | none => s.setStatus 0x022
  | some record => deliverPayload record s

/-- The request `ENCRYPT` makes to the entropy port: one with a password, none without (R136). -/
def afterRequest (s : State) : State := if emptyPassword s = true then s else rngConsume s

/-- `ENCRYPT` reads the password, the message and, with a password, the port's answer, and delivers what it makes of
them. -/
theorem encryptNext_eq (c : Params) (s : State) : encryptNext c s =
    encryptEnd (afterRequest s) (encryptResult c (password s) (message s) (rngNextAnswer c s)) := by
  unfold encryptNext encryptResult afterRequest
  simp only [emptyPassword_iff, password_eq_nil]
  split
  · simp [encryptEnd, deliverPayload, finish_eq]
  · cases rngNextAnswer c s <;> simp [encryptEnd, deliverPayload, finish_eq]

theorem encryptResult_eq_none {pwd msg : List Byte} {answer : RngAnswer c.nonceSize} :
    encryptResult c pwd msg answer = none ↔ pwd ≠ [] ∧ answer = .fail := by
  cases answer <;> by_cases pwd = [] <;> simp_all [encryptResult]

/-- The length of the payload is the one the launch premise bounds (R138, R272). -/
theorem length_of_encryptResult_some {record : List Byte}
    (h : encryptResult c (password s) (message s) (rngNextAnswer c s) = some record) :
    record.length = encryptedLen c s := by
  unfold encryptResult at h
  simp only [password_eq_nil] at h
  simp only [encryptedLen, emptyPassword_iff]
  split at h
  · next he =>
    cases h
    rw [if_pos he, length_message]
  · next he =>
    rw [if_neg he]
    split at h
    · cases h
    · cases h
      simp

/-- Two payloads made of one message under one password are equal exactly when the password is empty or the draws are
equal (R139): a record begins with its draw. -/
theorem encryptResult_inj {pwd msg record record' : List Byte} {answer answer' : RngAnswer c.nonceSize}
    (h : encryptResult c pwd msg answer = some record) (h' : encryptResult c pwd msg answer' = some record') :
    record' = record ↔ pwd = [] ∨ answer' = answer := by
  by_cases hpwd : pwd = []
  · simp_all [encryptResult]
  · cases answer with
    | fail => simp [encryptResult, hpwd] at h
    | bytes nonce =>
      cases answer' with
      | fail => simp [encryptResult, hpwd] at h'
      | bytes nonce' =>
        simp only [encryptResult, hpwd, if_false, Option.some.injEq] at h h'
        subst h h'
        simp only [hpwd, false_or, RngAnswer.bytes.injEq]
        refine ⟨fun heq => ?_, fun heq => by rw [heq]⟩
        obtain ⟨hnonce, -⟩ := List.append_inj heq (by simp)
        exact Vector.toList_inj.1 hnonce

section
variable (s)

@[simp] theorem afterRequest_paylen : (afterRequest s).paylen = s.paylen := by unfold afterRequest; split <;> rfl

@[simp] theorem afterRequest_msglen : (afterRequest s).msglen = s.msglen := by unfold afterRequest; split <;> rfl

theorem writesOnly_afterRequest (σ : Store) (n : Nat) : WritesOnly σ n s (afterRequest s) := by
  unfold afterRequest
  split
  · exact .refl s
  · exact (WritesOnly.refl s).rngConsume

theorem afterRequest_of_pwdlen_zero (h : s.pwdlen = 0) : afterRequest s = s := if_pos (emptyPassword_iff.2 h)

theorem afterRequest_draws : (afterRequest s).draws = s.draws + if s.pwdlen ≠ 0 then 1 else 0 := by
  unfold afterRequest
  simp only [emptyPassword_iff]
  split <;> simp_all

end

/-- The one inversion of `ENCRYPT`, the request to the port made: it raises and changes `STATUS` alone, or it delivers a
payload of the length of R138. -/
theorem encryptNext_cases (c : Params) (s : State) :
    (encryptResult c (password s) (message s) (rngNextAnswer c s) = none ∧
      encryptNext c s = (afterRequest s).setStatus 0x022) ∨
    ∃ record, record.length = encryptedLen c s ∧
      encryptResult c (password s) (message s) (rngNextAnswer c s) = some record ∧
      encryptNext c s = deliverPayload record (afterRequest s) := by
  rw [encryptNext_eq]
  cases hr : encryptResult c (password s) (message s) (rngNextAnswer c s) with
  | none => exact .inl ⟨rfl, rfl⟩
  | some record => exact .inr ⟨record, length_of_encryptResult_some hr, rfl, rfl⟩

@[simp] theorem encryptNext_msglen : (encryptNext c s).msglen = s.msglen := by
  obtain ⟨-, h⟩ | ⟨record, -, -, h⟩ := encryptNext_cases c s <;> simp [h, deliverPayload, finish_eq]

/-- `ENCRYPT` leaves the entropy port as its request left it. -/
theorem sameEntropy_encryptNext (c : Params) (s : State) : SameEntropy (afterRequest s) (encryptNext c s) := by
  obtain ⟨-, h⟩ | ⟨record, -, -, h⟩ := encryptNext_cases c s
  · rw [h]
    exact ⟨rfl, rfl⟩
  · rw [h]
    exact sameEntropy_writeBytes 0 record

/-- A launched `ENCRYPT` makes a payload that `PAYLEN` can hold (R24, R272). -/
theorem encryptedLen_lt (hp : encryptPremise c s = none) : encryptedLen c s < 4294967296 := by
  obtain ⟨-, -, hlen⟩ := (encryptPremise_eq_none c s).1 hp
  have := c.payCap_le
  omega

/-- `ENCRYPT` writes `PAY[0 .. new PAYLEN)` alone. -/
theorem writesOnly_encryptNext (hp : encryptPremise c s = none) :
    WritesOnly .pay (encryptNext c s).paylen.toNat s (encryptNext c s) := by
  obtain ⟨-, h⟩ | ⟨record, hlen, -, h⟩ := encryptNext_cases c s
  · rw [h]
    exact (writesOnly_afterRequest s _ _).setStatus _
  · rw [h]
    exact (writesOnly_afterRequest s _ _).trans (writesOnly_deliverPayload (hlen ▸ encryptedLen_lt hp))

/-- Settles O38: `ENCRYPT` writes `PAY[0 .. new PAYLEN)` alone, and nothing but `STATUS` and the entropy port when it
raises. -/
theorem encryptFrame : Obligations.EncryptFrame := by
  intro s t hx
  obtain ⟨hp, rfl⟩ := exec_next hx
  obtain ⟨setup, others, beyond, outside⟩ := writesOnly_encryptNext hp
  refine ⟨setup, encryptNext_msglen, encryptNext_cur _ s, others, beyond, fun hst => ?_, fun hpwd => ?_, outside⟩
  · obtain ⟨-, h⟩ | ⟨record, -, -, h⟩ := encryptNext_cases Config.reference s
    · rw [nextState, h]
      exact ⟨((writesOnly_afterRequest s .src 0).setStatus 0x022).others .pay (by decide), by simp⟩
    · rw [nextState, h] at hst
      exact absurd rfl hst
  · have h := sameEntropy_encryptNext Config.reference s
    rwa [afterRequest_of_pwdlen_zero s hpwd] at h

/-! ## The two commands as functions of their rows (R139) -/

theorem decryptPremise_congr (hL : s'.paylen = s.paylen) (hW : s'.pwdlen = s.pwdlen) :
    decryptPremise c s' = decryptPremise c s := by
  rw [decryptPremise, decryptPremise, hL, hW]

theorem encryptedLen_congr (hM : s'.msglen = s.msglen) (hW : s'.pwdlen = s.pwdlen) :
    encryptedLen c s' = encryptedLen c s := by
  rw [encryptedLen, encryptedLen, emptyPassword, emptyPassword, hM, hW]

theorem encryptPremise_congr (hM : s'.msglen = s.msglen) (hW : s'.pwdlen = s.pwdlen) :
    encryptPremise c s' = encryptPremise c s := by
  rw [encryptPremise, encryptPremise, encryptedLen_congr hM hW, hM, hW]

/-- States with one password and payload give `DECRYPT` the same `STATUS` and, on success, the same message. -/
theorem decryptNext_congr (hP : payload s' = payload s) (hW : password s' = password s) :
    (decryptNext c s').status = (decryptNext c s).status ∧
    ((decryptNext c s).status = 0x002 → (decryptNext c s').msglen = (decryptNext c s).msglen ∧
      message (decryptNext c s') = message (decryptNext c s)) := by
  have h' := decryptNext_eq c s'
  rw [hP, hW] at h'
  obtain ⟨v, hv, hr, h⟩ | ⟨p, hp, hr, h⟩ := decryptNext_cases c s
  · rw [h', h, hr]
    exact ⟨rfl, fun hst => absurd hst hv⟩
  · rw [h', h, hr]
    exact ⟨rfl, fun _ => ⟨rfl, (message_deliverMessage hp).trans (message_deliverMessage hp).symm⟩⟩

/-- States with one password and message give `ENCRYPT`, when it succeeds on both, payloads of one length that are
equal exactly when the password is empty or the draws are equal. -/
theorem encryptNext_congr (hp : encryptPremise c s = none) (hlens : encryptedLen c s' = encryptedLen c s)
    (hM : message s' = message s) (hW : password s' = password s)
    (hst : (encryptNext c s).status = 0x002) (hdraw : s.pwdlen ≠ 0 → rngNextAnswer c s' ≠ .fail) :
    (encryptNext c s').status = 0x002 ∧ (encryptNext c s').paylen = (encryptNext c s).paylen ∧
    (payload (encryptNext c s') = payload (encryptNext c s) ↔
      s.pwdlen = 0 ∨ rngNextAnswer c s' = rngNextAnswer c s) := by
  obtain ⟨-, h⟩ | ⟨record, hlen, hr, h⟩ := encryptNext_cases c s
  · rw [h] at hst
    exact absurd hst (by simp)
  obtain ⟨hr', -⟩ | ⟨record', hlen', hr', h'⟩ := encryptNext_cases c s'
  · obtain ⟨hne, hfail⟩ := encryptResult_eq_none.1 hr'
    rw [hW] at hne
    exact absurd hfail (hdraw (mt password_eq_nil.2 hne))
  · rw [hM, hW] at hr'
    have hlt := encryptedLen_lt hp
    rw [h, h', payload_deliverPayload (by omega), payload_deliverPayload (by omega), ← password_eq_nil]
    refine ⟨rfl, ?_, encryptResult_inj hr hr'⟩
    simp [deliverPayload, finish_eq, hlen, hlen', hlens]

/-- Settles O42: each command is its premise, a function of the lengths, and then what it makes of the bytes it reads
and the draw. -/
theorem cipherCommandsAreFunctionsOfTheirRows : Obligations.CipherCommandsAreFunctionsOfTheirRows := by
  refine ⟨fun s s' t hL hW hP hPwd hx => ?_, fun s s' t hL hW hM hPwd hx hst hdraw => ?_⟩
  · obtain ⟨hp, rfl⟩ := exec_next hx
    have hp' : premise Config.reference s' .decrypt = none := (decryptPremise_congr hL hW).trans hp
    exact ⟨_, exec_of_premise hp', decryptNext_congr hP hPwd⟩
  · obtain ⟨hp, rfl⟩ := exec_next hx
    have hp' : premise Config.reference s' .encrypt = none := (encryptPremise_congr hL hW).trans hp
    exact ⟨_, exec_of_premise hp', encryptNext_congr hp (encryptedLen_congr hL hW) hM hPwd hst hdraw⟩

end Sys2Proof.Machine
end

section
/-! PROOFS, family 20_memory: what every command keeps to (R70, R75, R232), and the host's read of a store byte (R73). -/

namespace Sys2Proof.Machine

variable {s : State}

/-! ## No command writes outside its row -/

/-- The store each command writes (R75, column writes). -/
def outputStore : Instr → Store
  | .embed => .dst
  | .extract => .pay
  | .encrypt => .pay
  | .decrypt => .msg

/-- A command that completes writes no store but its own. -/
theorem writesOnly_nextState {c : Params} {i : Instr} (hp : premise c s i = none) :
    ∃ n, WritesOnly (outputStore i) n s (nextState c s i) := by
  cases i with
  | embed => exact ⟨_, writesOnly_embedNext s⟩
  | extract => exact ⟨_, writesOnly_extractNext c s⟩
  | encrypt => exact ⟨_, writesOnly_encryptNext hp⟩
  | decrypt => exact ⟨_, writesOnly_decryptNext c s⟩

/-- Settles O50: the stores by the command's one output store, the registers command by command. -/
theorem commandsWriteOnlyTheirRow : Obligations.CommandsWriteOnlyTheirRow := by
  intro i s t hx
  obtain ⟨hp, rfl⟩ := exec_next hx
  obtain ⟨n, setup, others, -, -⟩ := writesOnly_nextState hp
  cases i with
  | embed =>
    exact ⟨others .src (by decide), others .pwd (by decide), setup, fun h => absurd rfl h,
      fun _ _ => ⟨others .pay (by decide), embedNext_paylen⟩, fun _ => ⟨others .msg (by decide), embedNext_msglen⟩,
      fun h => absurd rfl h⟩
  | extract =>
    exact ⟨others .src (by decide), others .pwd (by decide), setup, fun _ => others .dst (by decide),
      fun _ h => absurd rfl h, fun _ => ⟨others .msg (by decide), extractNext_msglen⟩, fun _ h => absurd rfl h⟩
  | encrypt =>
    exact ⟨others .src (by decide), others .pwd (by decide), setup, fun _ => others .dst (by decide),
      fun h => absurd rfl h, fun _ => ⟨others .msg (by decide), encryptNext_msglen⟩, fun _ _ => encryptNext_cur _ s⟩
  | decrypt =>
    exact ⟨others .src (by decide), others .pwd (by decide), setup, fun _ => others .dst (by decide),
      fun _ _ => ⟨others .pay (by decide), decryptNext_paylen⟩, fun h => absurd rfl h, fun _ _ => decryptNext_cur _ s⟩

/-- Settles O52: `ENCRYPT` leaves the count of requests as its own request left it, and the other three leave the port
untouched. -/
theorem onlyEncryptDraws : Obligations.OnlyEncryptDraws := by
  intro i s t hx
  obtain ⟨-, rfl⟩ := exec_next hx
  cases i with
  | embed => simpa [nextState] using (sameEntropy_embedNext s).1
  | extract => simpa [nextState] using (sameEntropy_extractNext Config.reference s).1
  | encrypt =>
    have h := (sameEntropy_encryptNext Config.reference s).1
    rw [afterRequest_draws] at h
    simpa [nextState] using h
  | decrypt => simpa [nextState] using (sameEntropy_decryptNext Config.reference s).1

/-! ## A host access to the stores of an idle block -/

section
variable {c : Params} {reach : List (Store × Nat)} {access : State → State} (hidle : s.idle)
include hidle

theorem storeAccess_inside (h : ∀ p ∈ reach, p.2 ≤ c.storeSize p.1) :
    storeAccess c reach access s = .next (access s) := by
  have hfind : reach.find? (fun p => decide (c.storeSize p.1 < p.2)) = none := by
    simpa [List.find?_eq_none] using fun a b hab => h (a, b) hab
  simp [storeAccess, show s.busy = false from hidle, hfind]

/-- A reach beyond a store faults at its last index (log 9). -/
theorem storeAccess_outside {p : Store × Nat} (h : reach.find? (fun q => decide (c.storeSize q.1 < q.2)) = some p) :
    storeAccess c reach access s = .fault (.storeIndexOutOfRange p.1 (p.2 - 1)) := by
  simp [storeAccess, show s.busy = false from hidle, h]

end

theorem hostAct_storeRead (s : State) (σ : Store) (a : Nat) : hostAct (.storeRead σ a) s =
    storeAccess Config.reference [(σ, a + 1)] (fun s => { s with hostRead := some (.byte (memRead s σ a)) }) s :=
  rfl

/-- Settles O13: a read of byte `a` reaches to `a + 1`, which is inside the store exactly when `a` is below its size. -/
theorem storeReadHasNoSideEffect : Obligations.StoreReadHasNoSideEffect := by
  refine fun s σ a hidle => ⟨fun h => ?_, fun h => ?_⟩
  · rw [hostAct_storeRead, storeAccess_inside hidle (by simpa using h)]
  · have hreach : Config.reference.storeSize σ < a + 1 := by omega
    rw [hostAct_storeRead, storeAccess_outside hidle (List.find?_cons_of_pos (by simpa using hreach))]
    rfl

end Sys2Proof.Machine
end

section
/-! PROOFS, family 30_encoding: the command words and the two pseudo-instructions made of them (R61, R90 to R97, R200,
R201). -/

namespace Sys2Proof.Machine

/-! ## Command words (R92) -/

/-- The decoder reads back the word of every command. -/
theorem decode_encode (i : Instr) : decode (encode i) = .ok i := by
  have h : Laws.Encoding.Statement i := by
    cases i
    · exact Laws.Encoding.embed
    · exact Laws.Encoding.extract
    · exact Laws.Encoding.encrypt
    · exact Laws.Encoding.decrypt
  obtain ⟨-, -, -, hd⟩ := h
  exact hd

/-- Every mask of the opcode map covers the whole word (R91), so a row selects its own command's word alone. -/
theorem eq_encode_of_selects {r : OpRow} {w : Word} (hr : r ∈ opcodeTable) (h : r.selects w = true) :
    w = encode r.instr := by
  have hrows : ∀ r ∈ opcodeTable, r.mask = BitVec.allOnes 32 ∧ r.pattern = encode r.instr := by decide
  obtain ⟨hmask, hpattern⟩ := hrows r hr
  rw [OpRow.selects, hmask, hpattern, BitVec.and_allOnes] at h
  exact eq_of_beq h

/-- A word decodes to a command exactly when it is the command's word. -/
theorem decode_eq_ok_iff {w : Word} {i : Instr} : decode w = .ok i ↔ w = encode i := by
  refine ⟨fun h => ?_, fun h => h ▸ decode_encode i⟩
  unfold decode at h
  split at h
  · next r hr =>
    cases h
    exact eq_encode_of_selects (List.mem_of_find?_eq_some hr) (List.find?_some (p := fun r : OpRow => r.selects w) hr)
  · split at h <;> cases h

/-- Settles O1: a word decodes to a command exactly when it is the command's word. -/
theorem fourWordsSelectTheFourCommands : Obligations.FourWordsSelectTheFourCommands := fun _ =>
  ⟨decode_eq_ok_iff, decode_eq_ok_iff, decode_eq_ok_iff, decode_eq_ok_iff⟩

/-- On bytes, the decoder reads the little-endian word and leaves the bytes after it (R61). -/
theorem decodeBytes_bytesOfWord_append {w : Word} {i : Instr} (rest : List Byte) (h : decode w = .ok i) :
    decodeBytes (bytesOfWord w ++ rest) = .ok (i, rest) := by
  simp [bytesOfWord, decodeBytes, h]

/-- Settles O2: the word decodes, and so do its four bytes, whatever follows them. -/
theorem decodeOfEncodeIsTheCommand : Obligations.DecodeOfEncodeIsTheCommand := fun i rest _ =>
  ⟨decode_encode i, decodeBytes_bytesOfWord_append rest (decode_encode i)⟩

/-- Settles O3: the two words and the bytes are those of their commands; the four other words are evaluated. -/
theorem writtenOutWordsDecode : Obligations.WrittenOutWordsDecode := by
  refine ⟨decode_encode .embed, decode_encode .decrypt, decodeBytes_bytesOfWord_append [] (decode_encode .extract), ?_⟩
  decide

/-! ## The pseudo-instructions (R97, R200, R201) -/

section
variable {s t : State} {i : Instr}

/-- A command leaves the block idle (R30, R99). -/
theorem idle_of_exec_next (h : exec i s = .next t) : t.idle := by
  obtain ⟨-, rfl⟩ := exec_next h
  obtain ⟨hbusy, -, -⟩ := idleStatusValues_fields _ (nextState_statusLegal Config.reference s i)
  exact hbusy

/-- The script line `CMD` runs its command on an idle block (R96). -/
theorem hostAct_cmd_of_idle (i : Instr) (h : s.idle) : hostAct (cmd i) s = exec i s :=
  hostAct_regWrite_zero_of_idle h (decode_encode i)

/-- The host's test inside `ENCODE`, on an idle block (R97). -/
theorem hostAct_commandIfNone_of_idle (i : Instr) (h : s.idle) :
    hostAct (.commandIfNone (encode i)) s = if s.err = 0 then exec i s else .next s := by
  rw [← hostAct_cmd_of_idle i h]
  rw [hostAct, hostActWith, commandIfNone, if_neg (ne_true_of_eq_false h)]
  rfl

theorem runActions_cons_of_next {a : HostAction} {rest : List HostAction} (h : hostAct a s = .next t) :
    runActions (a :: rest) s = runActions rest t := by
  rw [runActions, h]

theorem runActions_singleton (a : HostAction) (s : State) : runActions [a] s = hostAct a s := by
  rw [runActions]
  cases hostAct a s <;> rfl

end

/-- Settles O54: the first command runs and leaves the block idle, so the second action takes effect on its result. -/
theorem pipelinesAreTheirCommands : Obligations.PipelinesAreTheirCommands := by
  refine fun s e hidle => ⟨fun hx => ?_, fun hx => ?_⟩
  · rw [encodeSequence, runActions_cons_of_next ((hostAct_cmd_of_idle .encrypt hidle).trans hx), runActions_singleton]
    exact hostAct_commandIfNone_of_idle .embed (idle_of_exec_next hx)
  · rw [decodeSequence, runActions_cons_of_next ((hostAct_cmd_of_idle .extract hidle).trans hx), runActions_singleton]
    exact hostAct_cmd_of_idle .decrypt (idle_of_exec_next hx)

end Sys2Proof.Machine
end

section
/-! PROOFS, family 30_encoding: the header and the bit order (R101 to R104). -/

namespace Sys2Proof.Machine

/-! ## The digits of the header (R101) -/

/-- Byte `i` of the header is the ASCII code of the digit of weight `10^(7-i)`. -/
theorem toNat_getD_hdr (L : Nat) {i : Nat} (hi : i < 8) :
    ((hdr L).getD i 0).toNat = 0x30 + L / 10 ^ (7 - i) % 10 := by
  have hdigit : 0x30 + L / 10 ^ (7 - i) % 10 < 256 := by omega
  simpa [hdr, hi] using hdigit

/-- Settles O18: eight bytes, each the code of its digit. -/
theorem headerIsEightDecimalDigits : Obligations.HeaderIsEightDecimalDigits := fun L _ =>
  ⟨length_hdr L, fun _ => toNat_getD_hdr L⟩

/-- The last `n` decimal digits of a number, each with its weight, sum to the number modulo `10^n`. -/
theorem sum_decimalDigits (L n : Nat) :
    ∑ i ∈ Finset.range n, L / 10 ^ (n - 1 - i) % 10 * 10 ^ (n - 1 - i) = L % 10 ^ n := by
  rw [Finset.sum_range_reflect fun i => L / 10 ^ i % 10 * 10 ^ i]
  induction n with
  | zero => simp [Nat.mod_one]
  | succ n ih => rw [Finset.sum_range_succ, ih, Nat.mod_pow_succ, Nat.mul_comm]

/-! ## The parser of the reference configuration (R102) -/

theorem isDigit_iff (v : Byte) : isDigit v = true ↔ 0x30 ≤ v.toNat ∧ v.toNat ≤ 0x39 := by
  simp [isDigit]

/-- The parser looks at every byte of the string. -/
theorem all_isDigit_iff (h : List Byte) :
    h.all isDigit = true ↔ ∀ i, i < h.length → 0x30 ≤ (h.getD i 0).toNat ∧ (h.getD i 0).toNat ≤ 0x39 := by
  rw [List.all_eq_true, List.forall_mem_iff_getElem]
  refine forall₂_congr fun i hi => ?_
  rw [isDigit_iff, List.getD_eq_getElem _ _ hi]

/-- Horner's form is the sum of the digits with their weights (R102). -/
theorem digitsValue_eq_sum (h : List Byte) : digitsValue h =
    ∑ i ∈ Finset.range h.length, ((h.getD i 0).toNat - 0x30) * 10 ^ (h.length - 1 - i) := by
  induction h using List.reverseRecOn with
  | nil => rfl
  | append_singleton h d ih =>
    have hlast : digitsValue (h ++ [d]) = 10 * digitsValue h + (d.toNat - 0x30) := by simp [digitsValue]
    rw [hlast, ih, List.length_append, List.length_singleton, Finset.sum_range_succ, Finset.mul_sum]
    congr 1
    · refine Finset.sum_congr rfl fun i hi => ?_
      have hi : i < h.length := Finset.mem_range.1 hi
      rw [List.getD_append _ _ _ _ hi, show h.length + 1 - 1 - i = h.length - 1 - i + 1 by omega, pow_succ]
      ring
    · simp

theorem hdrParse_of_digits {h : List Byte} (hd : h.all isDigit = true) : hdrParse h = some (digitsValue h : Int) :=
  if_pos hd

theorem hdrParse_of_not_digits {h : List Byte} (hd : ¬ h.all isDigit = true) : hdrParse h = none :=
  if_neg hd

/-- Settles O19: the parser tests every byte, and Horner's form is the sum. -/
theorem headerParserTakesDigitsOnly : Obligations.HeaderParserTakesDigitsOnly := by
  intro h hlen
  have hall := all_isDigit_iff h
  rw [hlen] at hall
  refine ⟨fun hd => ?_, fun ⟨i, hi, hbad⟩ => hdrParse_of_not_digits fun hd => hbad (hall.1 hd i hi)⟩
  rw [hdrParse_of_digits (hall.2 hd), digitsValue_eq_sum, hlen, Nat.cast_sum]
  refine congrArg some (Finset.sum_congr rfl fun i hi => ?_)
  obtain ⟨hlow, -⟩ := hd i (Finset.mem_range.1 hi)
  rw [Nat.cast_mul, Nat.cast_sub hlow, Nat.cast_pow]
  rfl

/-- Every byte of the header is a digit. -/
theorem all_isDigit_hdr (L : Nat) : (hdr L).all isDigit = true := by
  refine (all_isDigit_iff _).2 fun i hi => ?_
  rw [toNat_getD_hdr L (by simpa using hi)]
  omega

/-- The header carries its length modulo `10^8`. -/
theorem digitsValue_hdr (L : Nat) : digitsValue (hdr L) = L % 10 ^ 8 := by
  rw [digitsValue_eq_sum, length_hdr, ← sum_decimalDigits]
  refine Finset.sum_congr rfl fun i hi => ?_
  rw [toNat_getD_hdr L (Finset.mem_range.1 hi), Nat.add_sub_cancel_left]

/-- Settles O20: the header is all digits, and their value is `L`, which has at most eight. -/
theorem headerParsesBack : Obligations.HeaderParsesBack := by
  intro L hL
  rw [hdrParse_of_digits (all_isDigit_hdr L), digitsValue_hdr, Nat.mod_eq_of_lt (b := 10 ^ 8) hL]

/-! ## The bit order (R103, R104) -/

/-- Bits `8j` to `8j + 7` of a string are those of byte `j`, most significant first. -/
theorem bit_eq_getLsbD (S : List Byte) (j : Nat) {t : Nat} (ht : t < 8) :
    bit S (8 * j + t) = (S.getD j 0).getLsbD (7 - t) := by
  rw [bit, show (8 * j + t) / 8 = j by omega, show (8 * j + t) % 8 = t by omega]

/-- Settles O21: the gathered byte and byte `j` have the same eight bits. -/
theorem gatherByteInvertsBit : Obligations.GatherByteInvertsBit := by
  intro s S j _ hslots
  refine byte_ext fun t ht => ?_
  rw [gatherByte, packByte_getLsbD _ ht, hslots t ht, bit_eq_getLsbD S j ht]

end Sys2Proof.Machine
end

section
/-! PROOFS, family 30_encoding: the script lines `FILL`, `COPY` and `RNG` (R98; logs 6, 9). -/

namespace Sys2Proof.Machine

variable {s : State}

/-! ## A string of writes: what it leaves, said for the host -/

@[simp] theorem regValue_setMem (s : State) (σ : Store) (m : Memory) (n : Nat) :
    regValue (s.setMem σ m) n = regValue s n := by
  unfold regValue
  split <;> simp [readStatus]

@[simp] theorem regValue_writeBytes (s : State) (σ : Store) (a : Nat) (S : List Byte) (n : Nat) :
    regValue (writeBytes s σ a S) n = regValue s n := by
  obtain ⟨m, h⟩ := writeBytes_eq_setMem s σ S a
  simp [h]

theorem memRead_writeBytes_inside (s : State) (σ : Store) (a : Nat) {S : List Byte} {j : Nat} (hj : j < S.length) :
    memRead (writeBytes s σ a S) σ (a + j) = S[j] := by
  rw [memRead_writeBytes, if_pos ⟨rfl, by omega, by omega⟩, Nat.add_sub_cancel_left, List.getD_eq_getElem _ _ hj]

theorem memRead_writeBytes_outside (s : State) (σ : Store) {a b : Nat} {S : List Byte}
    (hb : b < a ∨ a + S.length ≤ b) : memRead (writeBytes s σ a S) σ b = memRead s σ b := by
  rw [memRead_writeBytes, if_neg (by omega)]

theorem sameBytes_writeBytes_of_ne {σ τ : Store} (a : Nat) (S : List Byte) (h : τ ≠ σ) :
    SameBytes τ s (writeBytes s σ a S) := fun b => by
  rw [memRead_writeBytes, if_neg fun hin => h hin.1]

/-! ## The lines as store accesses -/

theorem hostAct_copy (s : State) (target source : Store) (n : Nat) : hostAct (.copy target source n) s =
    storeAccess Config.reference [(source, n), (target, n)]
      (fun s => writeBytes s target 0 (readBytes s source 0 n)) s :=
  rfl

theorem hostAct_fill (s : State) (σ : Store) (a : Nat) (S : List Byte) : hostAct (.fill σ a S) s =
    storeAccess Config.reference (if S.length = 0 then [] else [(σ, a + S.length)])
      (fun s => writeBytes s σ a S) s :=
  rfl

/-- An access that reaches beyond one of its stores faults (log 9). -/
theorem storeAccess_faults {c : Params} {reach : List (Store × Nat)} {access : State → State} (hidle : s.idle)
    (h : ∃ p ∈ reach, c.storeSize p.1 < p.2) :
    ∃ p ∈ reach, storeAccess c reach access s = .fault (.storeIndexOutOfRange p.1 (p.2 - 1)) := by
  have hsome : (reach.find? fun q => decide (c.storeSize q.1 < q.2)).isSome = true := by
    simpa [List.find?_isSome] using h
  obtain ⟨p, hp⟩ := Option.isSome_iff_exists.1 hsome
  exact ⟨p, List.mem_of_find?_eq_some hp, storeAccess_outside hidle hp⟩

section
variable (hidle : s.idle)
include hidle

theorem hostAct_fill_inside {σ : Store} {a : Nat} {S : List Byte} (h : a + S.length ≤ Config.reference.storeSize σ) :
    hostAct (.fill σ a S) s = .next (writeBytes s σ a S) := by
  rw [hostAct_fill, storeAccess_inside hidle]
  split
  · simp
  · simpa using h

theorem hostAct_copy_inside {target source : Store} {n : Nat} (hs : n ≤ Config.reference.storeSize source)
    (ht : n ≤ Config.reference.storeSize target) :
    hostAct (.copy target source n) s = .next (writeBytes s target 0 (readBytes s source 0 n)) := by
  rw [hostAct_copy, storeAccess_inside hidle]
  simp [hs, ht]

end

/-- Settles O12: inside the store `FILL` is the string of writes, past its end it faults. -/
theorem fillWritesItsBytes : Obligations.FillWritesItsBytes := by
  refine fun s σ a S hidle => ⟨fun hin => ⟨_, hostAct_fill_inside hidle hin, ?_⟩, fun hne hout => ?_⟩
  · exact ⟨fun j hj => memRead_writeBytes_inside s σ a hj, fun b hb => memRead_writeBytes_outside s σ hb,
      fun τ hτ => sameBytes_writeBytes_of_ne a S hτ, regValue_writeBytes s σ a S, sameEntropy_writeBytes a S,
      sameOutside_writeBytes a S⟩
  · rw [hostAct_fill, if_neg (mt List.length_eq_zero_iff.1 hne)]
    obtain ⟨p, hp, hfault⟩ := storeAccess_faults hidle ⟨(σ, a + S.length), List.mem_singleton_self _, hout⟩
    cases List.mem_singleton.1 hp
    exact ⟨_, hfault⟩

/-! ## The line `RNG` -/

theorem hostAct_rng (line : RngLine) (s : State) : hostAct (.rng line) s = .next { s with rngNext := some line } :=
  rfl

theorem sameBytes_withRngNext (s : State) (r : Option RngLine) (σ : Store) :
    SameBytes σ s { s with rngNext := r } :=
  memRead_congr (mem_withRngNext s r σ) rfl

theorem regValue_withRngNext (s : State) (r : Option RngLine) (n : Nat) :
    regValue { s with rngNext := r } n = regValue s n := rfl

/-- A line of another length than asked for is no answer (R135; log 6). -/
theorem answer_bytes_of_length_ne {n : Nat} {b : List Byte} (h : b.length ≠ n) : (RngLine.bytes b).answer n = none :=
  dif_neg h

/-- A line that names an answer of the port's length fixes the next one. -/
theorem rngNextAnswer_of_answer {c : Params} {line : RngLine} {r : RngAnswer c.nonceSize}
    (h : line.answer c.nonceSize = some r) : rngNextAnswer c { s with rngNext := some line } = r := by
  simp [rngNextAnswer, h]

/-- A line that names none leaves the free value. -/
theorem rngNextAnswer_of_no_answer {c : Params} {line : RngLine} (h : line.answer c.nonceSize = none) :
    rngNextAnswer c { s with rngNext := some line } = Config.rngAnswer c.nonceSize s.draws := by
  simp [rngNextAnswer, h]

/-- Settles O14: `COPY` writes the string it read first, and `RNG` sets the field the next request looks at. -/
theorem copyAndRngDoWhatTheirLinesSay : Obligations.CopyAndRngDoWhatTheirLinesSay := by
  refine fun s target source n r hidle => ⟨fun hs ht => ⟨_, hostAct_copy_inside hidle hs ht, ?_⟩, fun hout => ?_,
    ⟨_, hostAct_rng _ s, rngNextAnswer_of_answer (answer_ofAnswer r), rfl, sameBytes_withRngNext s _,
      regValue_withRngNext s _, rfl, rfl, rfl⟩,
    fun b hb => ⟨_, hostAct_rng _ s, rngNextAnswer_of_no_answer (answer_bytes_of_length_ne hb), rfl,
      sameBytes_withRngNext s _, regValue_withRngNext s _, rfl, rfl, rfl⟩⟩
  · refine ⟨fun j hj => ?_, fun b hb => memRead_writeBytes_outside s target (.inr (by simpa using hb)),
      fun τ hτ => sameBytes_writeBytes_of_ne 0 _ hτ, regValue_writeBytes s target 0 _, sameEntropy_writeBytes 0 _,
      sameOutside_writeBytes 0 _⟩
    have h := memRead_writeBytes_inside s target 0 (S := readBytes s source 0 n) (j := j) (by simpa using hj)
    simpa using h
  · obtain ⟨p, -, hfault⟩ := storeAccess_faults (reach := [(source, n), (target, n)]) hidle (by simpa using hout)
    exact ⟨_, _, (hostAct_copy s target source n).trans hfault⟩

end Sys2Proof.Machine
end

section
/-! PROOFS, family 40_cipher_layer: every outcome of `ENCRYPT` and of `DECRYPT`, and the lengths they leave (R136, R137,
R138). -/

namespace Sys2Proof.Machine

variable {c : Params} {s : State}

/-! ## What the two commands make of their inputs, case by case -/

theorem encryptResult_nil (msg : List Byte) (answer : RngAnswer c.nonceSize) :
    encryptResult c [] msg answer = some msg :=
  if_pos rfl

theorem decryptResult_nil (record : List Byte) : decryptResult c [] record = .ok record :=
  if_pos rfl

section
variable {pwd : List Byte} (hpwd : pwd ≠ [])
include hpwd

theorem encryptResult_bytes (msg : List Byte) (nonce : Vector Byte c.nonceSize) :
    encryptResult c pwd msg (.bytes nonce) = some (sealRecord c pwd nonce.toList msg) :=
  if_neg hpwd

theorem encryptResult_fail (msg : List Byte) : encryptResult c pwd msg .fail = none :=
  encryptResult_eq_none.2 ⟨hpwd, rfl⟩

/-- "Too short" comes before authentication (R137, R228). -/
theorem decryptResult_of_short {record : List Byte} (h : record.length < c.nonceSize) :
    decryptResult c pwd record = .error 0x132 := by
  rw [decryptResult, if_neg hpwd, if_pos h]

/-- From the length of a nonce on, the cipher decides (R137). -/
theorem decryptResult_of_long {record : List Byte} (h : c.nonceSize ≤ record.length) :
    decryptResult c pwd record = (openRecord c pwd record).elim (.error 0x032) .ok := by
  rw [decryptResult, if_neg hpwd, if_neg (Nat.not_lt.2 h)]
  cases openRecord c pwd record <;> rfl

end

/-- A record sealed under one password and read with another goes to the cipher with its own nonce (R137, R141). -/
theorem openRecord_sealRecord_other (pwd other msg : List Byte) (nonce : Vector Byte c.nonceSize) :
    openRecord c other (sealRecord c pwd nonce.toList msg) =
      c.aead.decipher (keyOf c other) nonce.toList (c.aead.encipher (keyOf c pwd) nonce.toList msg) := by
  have hn : nonce.toList.length = c.nonceSize := by simp
  rw [openRecord, sealRecord, List.take_left' hn, List.drop_left' hn]

/-- A record is longer than its nonce, so with a password the cipher decides. -/
theorem decryptResult_sealRecord {other : List Byte} (hother : other ≠ []) (pwd msg : List Byte)
    (nonce : Vector Byte c.nonceSize) : decryptResult c other (sealRecord c pwd nonce.toList msg) =
      (openRecord c other (sealRecord c pwd nonce.toList msg)).elim (.error 0x032) .ok :=
  decryptResult_of_long hother (by rw [length_sealRecord, recordLen]; omega)

/-- Under one password, empty or not, `DECRYPT` gives back what `ENCRYPT` was given (R140): `OPEN_SEAL`. -/
theorem decryptResult_of_encryptResult {pwd msg record : List Byte} {answer : RngAnswer c.nonceSize}
    (h : encryptResult c pwd msg answer = some record) : decryptResult c pwd record = .ok msg := by
  by_cases hpwd : pwd = []
  · subst hpwd
    cases (encryptResult_nil msg answer).symm.trans h
    exact decryptResult_nil _
  · cases answer with
    | fail => cases (encryptResult_fail hpwd msg).symm.trans h
    | bytes nonce =>
      cases (encryptResult_bytes hpwd msg nonce).symm.trans h
      rw [decryptResult_sealRecord hpwd, openRecord_sealRecord]
      rfl

/-- A record that opens is a nonce, the message's bytes and a tag (R138). -/
theorem length_of_decryptResult_ok {pwd record p : List Byte} (hpwd : pwd ≠ [])
    (h : decryptResult c pwd record = .ok p) : p.length + c.nonceSize + c.tagSize = record.length := by
  by_cases hlen : record.length < c.nonceSize
  · cases (decryptResult_of_short hpwd hlen).symm.trans h
  · rw [decryptResult_of_long hpwd (Nat.not_lt.1 hlen)] at h
    cases ho : openRecord c pwd record with
    | none => cases (ho ▸ h)
    | some q =>
      rw [ho] at h
      cases h
      have := length_openRecord c ho
      omega

/-! ## The next state, given what the command makes of its inputs -/

theorem encryptNext_of_none (h : encryptResult c (password s) (message s) (rngNextAnswer c s) = none) :
    encryptNext c s = (afterRequest s).setStatus 0x022 := by
  rw [encryptNext_eq, h]
  rfl

theorem encryptNext_of_some {record : List Byte}
    (h : encryptResult c (password s) (message s) (rngNextAnswer c s) = some record) :
    encryptNext c s = deliverPayload record (afterRequest s) := by
  rw [encryptNext_eq, h]
  rfl

theorem decryptNext_of_error {v : Word} (h : decryptResult c (password s) (payload s) = .error v) :
    decryptNext c s = s.setStatus v := by
  rw [decryptNext_eq, h]
  rfl

theorem decryptNext_of_ok {p : List Byte} (h : decryptResult c (password s) (payload s) = .ok p) :
    decryptNext c s = deliverMessage p s := by
  rw [decryptNext_eq, h]
  rfl

theorem afterRequest_of_pwdlen_ne_zero (h : s.pwdlen ≠ 0) : afterRequest s = rngConsume s :=
  if_neg (mt emptyPassword_iff.1 h)

/-! ## The state a delivery leaves, written out -/

section
variable {S : List Byte} (s) (h : S.length < 4294967296)
include h

/-- A delivered payload is in `PAY`, its length in `PAYLEN`, and nothing else changes but `STATUS` (R136). -/
theorem deliverPayload_spec : ∃ d, let t : State :=
      { s with pay := d, paylen := BitVec.ofNat 32 S.length, status := 0x002 }
    deliverPayload S s = t ∧ t.paylen.toNat = S.length ∧ readBytes t .pay 0 S.length = S ∧
      SameBytesFrom S.length .pay s t := by
  obtain ⟨d, hd⟩ := writeBytes_eq_setMem s .pay S 0
  have heq : deliverPayload S s = { s with pay := d, paylen := BitVec.ofNat 32 S.length, status := 0x002 } := by
    rw [deliverPayload, hd]
    rfl
  have hlen := toNat_paylen_deliverPayload (s := s) h
  have hframe := writesOnly_deliverPayload (s := s) h
  refine ⟨d, heq, heq ▸ ⟨hlen, ?_, hlen ▸ hframe.beyond⟩⟩
  rw [← hlen]
  exact payload_deliverPayload h

/-- A delivered message is in `MSG`, its length in `MSGLEN`, and nothing else changes but `STATUS` (R137). -/
theorem deliverMessage_spec : ∃ d, let t : State :=
      { s with msg := d, msglen := BitVec.ofNat 32 S.length, status := 0x002 }
    deliverMessage S s = t ∧ t.msglen.toNat = S.length ∧ readBytes t .msg 0 S.length = S ∧
      SameBytesFrom S.length .msg s t := by
  obtain ⟨d, hd⟩ := writeBytes_eq_setMem s .msg S 0
  have heq : deliverMessage S s = { s with msg := d, msglen := BitVec.ofNat 32 S.length, status := 0x002 } := by
    rw [deliverMessage, hd]
    rfl
  have hlen := toNat_msglen_deliverMessage (s := s) h
  have hframe := writesOnly_deliverMessage (s := s) h
  refine ⟨d, heq, heq ▸ ⟨hlen, ?_, hlen ▸ hframe.beyond⟩⟩
  rw [← hlen]
  exact message_deliverMessage h

end

/-! ## The launch premises in the reference configuration (R272) -/

theorem toNat_word_le (w : Word) : w.toNat ≤ 4294967295 := by omega

/-- No register exceeds the stores of the reference configuration, so `DECRYPT` is never refused. -/
theorem decryptPremise_reference (s : State) : decryptPremise Config.reference s = none :=
  (decryptPremise_eq_none _ s).2 ⟨toNat_word_le _, toNat_word_le _, toNat_word_le _⟩

/-- The length of what `ENCRYPT` delivers, written out (R138). -/
theorem encryptedLen_eq (c : Params) (s : State) : encryptedLen c s =
    if s.pwdlen = 0 then s.msglen.toNat else c.nonceSize + s.msglen.toNat + c.tagSize := by
  simp only [encryptedLen, emptyPassword_iff, recordLen]

/-- `ENCRYPT` is refused only when the record is longer than `PAY`. -/
theorem encryptPremise_reference
    (h : s.pwdlen ≠ 0 → Config.nonceSize + s.msglen.toNat + Config.tagSize ≤ Config.payCap) :
    encryptPremise Config.reference s = none := by
  refine (encryptPremise_eq_none _ s).2 ⟨toNat_word_le _, toNat_word_le _, ?_⟩
  rw [encryptedLen_eq]
  split
  · exact toNat_word_le _
  · next hpwd => exact h hpwd

theorem exec_encrypt_eq
    (h : s.pwdlen ≠ 0 → Config.nonceSize + s.msglen.toNat + Config.tagSize ≤ Config.payCap) :
    exec .encrypt s = .next (encryptNext Config.reference s) :=
  exec_of_premise (encryptPremise_reference h)

theorem exec_decrypt_eq (s : State) : exec .decrypt s = .next (decryptNext Config.reference s) :=
  exec_of_premise (decryptPremise_reference s)

/-! ## Every outcome (R136, R137) -/

/-- Settles O36: without a password the message is delivered as it is; with one the draw decides between the raise and
the sealed record. -/
theorem encryptWritesTheRecord : Obligations.EncryptWritesTheRecord := by
  intro s _ _ _ hcap M R msg pwd
  have hx := exec_encrypt_eq hcap
  by_cases hpwd : s.pwdlen = 0
  · rw [if_pos hpwd]
    have hres : encryptResult Config.reference (password s) (message s) (rngNextAnswer Config.reference s) =
        some (message s) := by
      rw [password_eq_nil.2 hpwd, encryptResult_nil]
    obtain ⟨d, heq, -, hread, hbeyond⟩ := deliverPayload_spec s (S := message s) (by rw [length_message]; omega)
    simp only [length_message, BitVec.ofNat_toNat, BitVec.setWidth_eq] at heq hread hbeyond
    rw [encryptNext_of_some hres, afterRequest_of_pwdlen_zero s hpwd, heq] at hx
    exact ⟨d, hx, hread, hbeyond⟩
  · rw [if_neg hpwd]
    have hne : password s ≠ [] := mt password_eq_nil.1 hpwd
    have hafter := afterRequest_of_pwdlen_ne_zero hpwd
    cases hr : rngNextAnswer Config.reference s with
    | fail =>
      have hres := encryptResult_fail (c := Config.reference) hne (message s)
      rw [encryptNext_of_none (hr ▸ hres), hafter] at hx
      exact hx
    | bytes r =>
      have hres := encryptResult_bytes (c := Config.reference) hne (message s) r
      have hlen : (sealRecord Config.reference (password s) r.toList (message s)).length = R := by
        rw [length_sealRecord, length_message]; rfl
      obtain ⟨d, heq, hpay, hread, hbeyond⟩ := deliverPayload_spec (rngConsume s)
        (S := sealRecord Config.reference (password s) r.toList (message s))
        (hlen ▸ Nat.lt_succ_of_le (hcap hpwd))
      rw [hlen] at heq hpay hread hbeyond
      rw [encryptNext_of_some (hr ▸ hres), hafter, heq] at hx
      exact ⟨d, hx, hpay, hread, hbeyond⟩

/-- Settles O37: without a password the payload is delivered as it is; with one its length decides first and then the
cipher, which opens it or not. -/
theorem decryptOpensTheRecord : Obligations.DecryptOpensTheRecord := by
  intro s _ _ _ L p pwd
  have hx := exec_decrypt_eq s
  have hL : (payload s).length = L := length_payload s
  by_cases hpwd : s.pwdlen = 0
  · rw [if_pos hpwd]
    have hres : decryptResult Config.reference (password s) (payload s) = .ok (payload s) := by
      rw [password_eq_nil.2 hpwd, decryptResult_nil]
    obtain ⟨d, heq, -, hread, hbeyond⟩ := deliverMessage_spec s (S := payload s) (by rw [length_payload]; omega)
    simp only [length_payload, BitVec.ofNat_toNat, BitVec.setWidth_eq] at heq hread hbeyond
    rw [decryptNext_of_ok hres, heq] at hx
    exact ⟨d, hx, hread, hbeyond⟩
  · rw [if_neg hpwd]
    have hne : password s ≠ [] := mt password_eq_nil.1 hpwd
    by_cases hshort : L < Config.nonceSize
    · rw [if_pos hshort]
      rw [decryptNext_of_error (decryptResult_of_short (c := Config.reference) hne (hL ▸ hshort))] at hx
      exact hx
    · rw [if_neg hshort]
      have hres := decryptResult_of_long (c := Config.reference) (record := payload s) hne
        (hL ▸ Nat.not_lt.1 hshort)
      cases ho : Config.aead.decipher (Config.hash256 pwd) (p.take Config.nonceSize) (p.drop Config.nonceSize) with
      | none =>
        rw [show openRecord Config.reference (password s) (payload s) = none from ho] at hres
        rw [decryptNext_of_error hres] at hx
        exact hx
      | some r =>
        rw [show openRecord Config.reference (password s) (payload s) = some r from ho] at hres
        have hlen : r.length + Config.nonceSize + Config.tagSize = L :=
          (length_of_decryptResult_ok hne hres).trans hL
        obtain ⟨d, heq, hmsglen, hread, hbeyond⟩ := deliverMessage_spec s (S := r) (by omega)
        rw [decryptNext_of_ok hres, heq] at hx
        exact ⟨d, hx, hmsglen, by omega, hread, hbeyond⟩

/-! ## The lengths after a success (R138) -/

theorem toNat_paylen_of_encrypt {t : State} (hx : execWith c .encrypt s = .next t) (hst : t.status = 0x002) :
    t.paylen.toNat = if s.pwdlen = 0 then s.msglen.toNat else c.nonceSize + s.msglen.toNat + c.tagSize := by
  obtain ⟨hp, rfl⟩ := execWith_next c hx
  rw [nextState] at hst ⊢
  rw [← encryptedLen_eq]
  obtain ⟨-, h⟩ | ⟨record, hlen, -, h⟩ := encryptNext_cases c s
  · rw [h] at hst
    cases hst
  · rw [h, toNat_paylen_deliverPayload (hlen ▸ encryptedLen_lt hp), hlen]

theorem toNat_msglen_of_decrypt {t : State} (hx : execWith c .decrypt s = .next t) (hst : t.status = 0x002) :
    if s.pwdlen = 0 then t.msglen.toNat = s.paylen.toNat
    else t.msglen.toNat + c.nonceSize + c.tagSize = s.paylen.toNat := by
  obtain ⟨-, rfl⟩ := execWith_next c hx
  rw [nextState] at hst ⊢
  obtain ⟨v, hv, -, h⟩ | ⟨p, hp, hres, h⟩ := decryptNext_cases c s
  · rw [h] at hst
    exact absurd hst hv
  · rw [h, toNat_msglen_deliverMessage hp, ← length_payload s]
    split
    · next hpwd =>
      rw [password_eq_nil.2 hpwd, decryptResult_nil] at hres
      cases hres
      rfl
    · next hpwd => exact length_of_decryptResult_ok (mt password_eq_nil.1 hpwd) hres

/-- Settles O40: a success delivers, and what it delivers has the length of R138; the reference configuration is one of
all. -/
theorem recordLengths : Obligations.RecordLengths := by
  refine ⟨fun s t hx => ?_, fun s t hx => ?_, fun c s t => toNat_paylen_of_encrypt,
    fun c s t => toNat_msglen_of_decrypt⟩
  · exact toNat_paylen_of_encrypt (c := Config.reference) (by rwa [execWith_reference])
  · exact toNat_msglen_of_decrypt (c := Config.reference) (by rwa [execWith_reference])

end Sys2Proof.Machine
end

section
/-! PROOFS, family 40_cipher_layer: `ENCRYPT`, the host's writes, `DECRYPT` (R140, R141, R205). -/

namespace Sys2Proof.Machine

variable {c : Params} {s t : State}

/-! ## What a command reads is the same where its bytes and its length are -/

theorem payload_congr (hL : t.paylen = s.paylen) (hb : SameBytes .pay s t) : payload t = payload s := by
  rw [payload, payload, hL]
  exact readBytes_congr fun _ _ => hb _

theorem password_congr (hW : t.pwdlen = s.pwdlen) (hb : SameBytes .pwd s t) : password t = password s := by
  rw [password, password, hW]
  exact readBytes_congr fun _ _ => hb _

/-! ## What `ENCRYPT` leaves -/

theorem password_encryptNext (hp : encryptPremise c s = none) : password (encryptNext c s) = password s := by
  obtain ⟨⟨-, -, hW⟩, others, -, -⟩ := writesOnly_encryptNext hp
  exact password_congr hW (others .pwd (by decide))

theorem payload_encryptNext (hp : encryptPremise c s = none) {record : List Byte}
    (h : encryptResult c (password s) (message s) (rngNextAnswer c s) = some record) :
    payload (encryptNext c s) = record := by
  have hlen := length_of_encryptResult_some h
  rw [encryptNext_of_some h, payload_deliverPayload (hlen ▸ encryptedLen_lt hp)]

theorem payload_encryptNext_sealed (hp : encryptPremise c s = none) (hpwd : s.pwdlen ≠ 0)
    {nonce : Vector Byte c.nonceSize} (hr : rngNextAnswer c s = .bytes nonce) :
    payload (encryptNext c s) = sealRecord c (password s) nonce.toList (message s) :=
  payload_encryptNext hp (hr ▸ encryptResult_bytes (mt password_eq_nil.1 hpwd) (message s) nonce)

theorem payload_encryptNext_plain (hp : encryptPremise c s = none) (hpwd : s.pwdlen = 0) :
    payload (encryptNext c s) = message s :=
  payload_encryptNext hp (by rw [password_eq_nil.2 hpwd, encryptResult_nil])

/-- With the draw successful where one is made, there is a payload. -/
theorem exists_encryptResult (hdraw : s.pwdlen ≠ 0 → rngNextAnswer c s ≠ .fail) :
    ∃ record, encryptResult c (password s) (message s) (rngNextAnswer c s) = some record := by
  refine Option.ne_none_iff_exists'.1 fun hnone => ?_
  obtain ⟨hne, hfail⟩ := encryptResult_eq_none.1 hnone
  exact hdraw (mt password_eq_nil.2 hne) hfail

/-- `DECRYPT` delivers the message wherever the payload `ENCRYPT` left meets its password again (R140). -/
theorem decryptNext_of_encrypted (hp : encryptPremise c s = none) (hdraw : s.pwdlen ≠ 0 → rngNextAnswer c s ≠ .fail)
    (hP : payload t = payload (encryptNext c s)) (hW : password t = password s) :
    decryptNext c t = deliverMessage (message s) t := by
  obtain ⟨record, hr⟩ := exists_encryptResult hdraw
  refine decryptNext_of_ok ?_
  rw [hP, hW, payload_encryptNext hp hr]
  exact decryptResult_of_encryptResult hr

/-- After a successful `ENCRYPT` the launch premise of `DECRYPT` is that the payload fits `MSG` (R272). -/
theorem decryptPremise_encryptNext (hp : encryptPremise c s = none)
    (hdraw : s.pwdlen ≠ 0 → rngNextAnswer c s ≠ .fail) (hmsg : (encryptNext c s).paylen.toNat ≤ c.msgCap) :
    decryptPremise c (encryptNext c s) = none := by
  obtain ⟨record, hr⟩ := exists_encryptResult hdraw
  obtain ⟨-, hpwd, hpay⟩ := (encryptPremise_eq_none c s).1 hp
  have hlen : (encryptNext c s).paylen.toNat = encryptedLen c s := by
    rw [← length_payload, payload_encryptNext hp hr, length_of_encryptResult_some hr]
  rw [← length_password, ← password_encryptNext hp, length_password] at hpwd
  exact (decryptPremise_eq_none c _).2 ⟨hlen.trans_le hpay, hpwd, hmsg⟩

@[simp] theorem deliverMessage_status (S : List Byte) (s : State) : (deliverMessage S s).status = 0x002 := rfl

/-- A delivered message is read back with its length. -/
theorem deliverMessage_message (s t : State) : (deliverMessage (message s) t).status = 0x002 ∧
    (deliverMessage (message s) t).msglen = s.msglen ∧ message (deliverMessage (message s) t) = message s := by
  refine ⟨rfl, ?_, message_deliverMessage (by rw [length_message]; omega)⟩
  simp [deliverMessage, finish_eq]

/-! ## The host's writes between the two commands -/

/-- A string of bytes put into one store and a register write leave the other stores alone. -/
theorem sameBytes_setReg_writeBytes {σ τ : Store} (n : Nat) (v : Word) (S : List Byte) (h : τ ≠ σ) :
    SameBytes τ s (setReg (writeBytes s σ 0 S) n v) := fun b =>
  (sameBytes_setReg _ n v τ b).trans (sameBytes_writeBytes_of_ne 0 S h b)

/-- The host puts bytes into `MSG` and a value into `MSGLEN` (R25). -/
def withMessage (s : State) (bytes : List Byte) (n : Word) : State := setReg (writeBytes s .msg 0 bytes) 5 n

theorem payload_withMessage (s : State) (bytes : List Byte) (n : Word) :
    payload (withMessage s bytes n) = payload s :=
  payload_congr (writeBytes_paylen 0 bytes) (sameBytes_setReg_writeBytes 5 n bytes (by decide))

theorem password_withMessage (s : State) (bytes : List Byte) (n : Word) :
    password (withMessage s bytes n) = password s := by
  obtain ⟨-, -, hW⟩ := sameSetup_writeBytes (s := s) (σ := .msg) 0 bytes
  exact password_congr hW (sameBytes_setReg_writeBytes 5 n bytes (by decide))

/-- The host puts a password into `PWD` and its length into `PWDLEN` (R26). -/
def withPassword (s : State) (pwd : List Byte) : State :=
  setReg (writeBytes s .pwd 0 pwd) 6 (BitVec.ofNat 32 pwd.length)

theorem password_withPassword (s : State) {pwd : List Byte} (h : pwd.length ≤ Config.pwdCap) :
    password (withPassword s pwd) = pwd := by
  have hlen : (withPassword s pwd).pwdlen.toNat = pwd.length := toNat_word (Nat.lt_succ_of_le h)
  rw [password, hlen]
  exact readBytes_eq fun i hi => (sameBytes_setReg _ 6 _ .pwd _).trans (memRead_writeBytes_inside s .pwd 0 hi)

theorem payload_withPassword (s : State) (pwd : List Byte) : payload (withPassword s pwd) = payload s :=
  payload_congr (writeBytes_paylen 0 pwd) (sameBytes_setReg_writeBytes 6 _ pwd (by decide))

/-- So `DECRYPT` makes of the payload what the new password says. -/
theorem decryptNext_withPassword (s : State) {pwd : List Byte} (h : pwd.length ≤ Config.pwdCap) :
    decryptNext c (withPassword s pwd) = decryptEnd (withPassword s pwd) (decryptResult c pwd (payload s)) := by
  rw [decryptNext_eq, password_withPassword s h, payload_withPassword]

theorem msglen_withPassword (s : State) (pwd : List Byte) : (withPassword s pwd).msglen = s.msglen :=
  writeBytes_msglen 0 pwd

/-- `ENCRYPT` and another password leave the message as it was. -/
theorem message_kept (hp : encryptPremise c s = none) (pwd : List Byte) :
    (withPassword (encryptNext c s) pwd).msglen = s.msglen ∧
      SameBytes .msg s (withPassword (encryptNext c s) pwd) := by
  obtain ⟨-, others, -, -⟩ := writesOnly_encryptNext hp
  exact ⟨(msglen_withPassword _ pwd).trans encryptNext_msglen, fun a =>
    (sameBytes_setReg_writeBytes 6 _ pwd (by decide) a).trans (others .msg (by decide) a)⟩

/-! ## The scripts -/

theorem idle_setReg (n : Nat) (v : Word) (h : s.idle) : (setReg s n v).idle := by
  rw [State.idle, State.busy, setReg_status]
  exact h

theorem idle_writeBytes (σ : Store) (S : List Byte) (h : s.idle) : (writeBytes s σ 0 S).idle := by
  rw [State.idle, State.busy, writeBytes_status]
  exact h

section
variable {n : Nat} {v : Word} (hidle : s.idle) (hn : n ≠ 0)
include hidle

theorem runActions_encrypt_cons (hp : encryptPremise Config.reference s = none) (rest : List HostAction) :
    (encryptNext Config.reference s).idle ∧
      runActions (cmd .encrypt :: rest) s = runActions rest (encryptNext Config.reference s) := by
  have hx : exec .encrypt s = .next (encryptNext Config.reference s) := exec_of_premise hp
  exact ⟨idle_of_exec_next hx, runActions_cons_of_next ((hostAct_cmd_of_idle .encrypt hidle).trans hx)⟩

include hn

theorem runActions_regWrite_decrypt :
    runActions [.regWrite n v, cmd .decrypt] s = .next (decryptNext Config.reference (setReg s n v)) := by
  rw [runActions_cons_of_next (hostAct_regWrite_of_idle v hidle hn), runActions_singleton,
    hostAct_cmd_of_idle .decrypt (idle_setReg n v hidle), exec_decrypt_eq]

/-- `ENCRYPT`, a register write, `DECRYPT`. -/
theorem runActions_encrypt_regWrite_decrypt (hp : encryptPremise Config.reference s = none) :
    runActions [cmd .encrypt, .regWrite n v, cmd .decrypt] s =
      .next (decryptNext Config.reference (setReg (encryptNext Config.reference s) n v)) := by
  obtain ⟨hidle', hrun⟩ := runActions_encrypt_cons hidle hp [.regWrite n v, cmd .decrypt]
  rw [hrun, runActions_regWrite_decrypt hidle' hn]

/-- `ENCRYPT`, bytes put into a store, a register write, `DECRYPT`. -/
theorem runActions_encrypt_fill_decrypt (hp : encryptPremise Config.reference s = none) {σ : Store} {S : List Byte}
    (hS : S.length ≤ Config.reference.storeSize σ) :
    runActions [cmd .encrypt, .fill σ 0 S, .regWrite n v, cmd .decrypt] s =
      .next (decryptNext Config.reference (setReg (writeBytes (encryptNext Config.reference s) σ 0 S) n v)) := by
  obtain ⟨hidle', hrun⟩ := runActions_encrypt_cons hidle hp [.fill σ 0 S, .regWrite n v, cmd .decrypt]
  rw [hrun, runActions_cons_of_next (hostAct_fill_inside hidle' (by rwa [Nat.zero_add])),
    runActions_regWrite_decrypt (idle_writeBytes σ S hidle') hn]

end

/-! ## The obligations -/

/-- Settles O43: the host's writes between the commands, to `MSG` and `MSGLEN`, are to nothing `DECRYPT` reads, and
`OPEN_SEAL` opens the record. -/
theorem encryptThenDecryptReturnsTheMessage : Obligations.EncryptThenDecryptReturnsTheMessage := by
  refine ⟨fun s n junk hidle hready hjunk => ?_, fun c s e hdraw hx hmsg => ?_⟩
  · have hp := encryptPremise_reference fun hpwd => (hready hpwd).1
    refine ⟨decryptNext Config.reference (withMessage (encryptNext Config.reference s) junk n),
      runActions_encrypt_fill_decrypt hidle (by decide) hp hjunk, ?_⟩
    rw [decryptNext_of_encrypted hp (fun hpwd => (hready hpwd).2) (payload_withMessage _ junk n)
      ((password_withMessage _ junk n).trans (password_encryptNext hp))]
    exact deliverMessage_message s _
  · obtain ⟨hp, rfl⟩ := execWith_next c hx
    refine ⟨decryptNext c (encryptNext c s), execWith_of_premise (decryptPremise_encryptNext hp hdraw hmsg), ?_⟩
    rw [decryptNext_of_encrypted hp hdraw rfl (password_encryptNext hp)]
    exact deliverMessage_message s _

/-- Settles O44: `DECRYPT` meets the record of `s` under the other password, and the cipher decides. -/
theorem anotherPasswordFailsUnlessTheCipherOpens : Obligations.AnotherPasswordFailsUnlessTheCipherOpens := by
  intro s r other hidle hpwd hcap hr hother hlen
  have hp := encryptPremise_reference fun _ => hcap
  have hopen : openRecord Config.reference other (sealRecord Config.reference (password s) r.toList (message s)) =
      Config.aead.decipher (Config.hash256 other) r.toList
        (Config.aead.encipher (Config.hash256 (password s)) r.toList (message s)) :=
    openRecord_sealRecord_other _ _ _ _
  refine ⟨decryptNext Config.reference (withPassword (encryptNext Config.reference s) other),
    runActions_encrypt_fill_decrypt hidle (by decide) hp hlen, ?_⟩
  rw [decryptNext_withPassword _ hlen, payload_encryptNext_sealed hp hpwd hr, decryptResult_sealRecord hother, hopen]
  cases Config.aead.decipher (Config.hash256 other) r.toList
      (Config.aead.encipher (Config.hash256 (password s)) r.toList (message s)) with
  | none => exact ⟨⟨fun _ => rfl, fun _ => rfl⟩, fun _ => message_kept hp other⟩
  | some p => simp [decryptEnd]

/-- Settles O45: `DECRYPT` takes the payload for what the password of the moment says it is, a plain one or a record. -/
theorem nothingMarksARecord : Obligations.NothingMarksARecord := by
  refine ⟨fun s r hidle hpwd hcap hr => ?_, fun s other hidle hpwd hshort hother hlen => ?_⟩
  · have hp := encryptPremise_reference fun _ => hcap
    have hlen : (sealRecord Config.reference (password s) r.toList (message s)).length =
        Config.nonceSize + s.msglen.toNat + Config.tagSize := by
      rw [length_sealRecord, length_message]
      rfl
    have hlt := Nat.lt_succ_of_le (hlen.trans_le hcap)
    refine ⟨decryptNext Config.reference (withPassword (encryptNext Config.reference s) []),
      runActions_encrypt_regWrite_decrypt hidle (by decide) hp, ?_⟩
    rw [decryptNext_withPassword _ (Nat.zero_le _), payload_encryptNext_sealed hp hpwd hr, decryptResult_nil]
    exact ⟨rfl, (toNat_msglen_deliverMessage hlt).trans hlen, message_deliverMessage hlt⟩
  · have hp := encryptPremise_reference fun h => absurd hpwd h
    have hshort' : (message s).length < Config.reference.nonceSize := (length_message s).trans_lt hshort
    refine ⟨decryptNext Config.reference (withPassword (encryptNext Config.reference s) other),
      runActions_encrypt_fill_decrypt hidle (by decide) hp hlen, ?_⟩
    rw [decryptNext_withPassword _ hlen, payload_encryptNext_plain hp hpwd, decryptResult_of_short hother hshort']
    exact ⟨rfl, message_kept hp other⟩

end Sys2Proof.Machine
end

section
/-! PROOFS, family 41_pixel_codec: the least-significant-bit write (R66, R175), and when `EMBED` succeeds (R168). -/

namespace Sys2Proof.Machine

/-! ## The least-significant-bit write -/

/-- Bits 7 to 1 of the old byte, then the data bit (R66). -/
theorem setLsb_eq_concat (old : Byte) (b : Bool) : setLsb old b = (old.extractLsb' 1 7).concat b := by
  refine BitVec.eq_of_getLsbD_eq fun i hi => ?_
  cases b <;> interval_cases i <;> simp [setLsb]

theorem toNat_setLsb (old : Byte) (b : Bool) : (setLsb old b).toNat = 2 * (old.toNat / 2) + b.toNat := by
  have hlt : old.toNat / 2 < 2 ^ 7 := by omega
  rw [setLsb_eq_concat, BitVec.toNat_concat, BitVec.extractLsb'_toNat, Nat.shiftRight_one, Nat.mod_eq_of_lt hlt]
  omega

/-- Bit 0 of a byte is its value modulo 2 (R62). -/
theorem toNat_getLsbD_zero (v : Byte) : (v.getLsbD 0).toNat = v.toNat % 2 := by
  rw [BitVec.getLsbD, Nat.testBit_zero]
  obtain h | h := Nat.mod_two_eq_zero_or_one v.toNat <;> simp [h]

/-- The write leaves a byte alone exactly when it carries the bit already (R175). -/
theorem setLsb_eq_self_iff (old : Byte) (b : Bool) : setLsb old b = old ↔ old.getLsbD 0 = b := by
  refine ⟨fun h => by rw [← h, setLsb_getLsbD_zero], fun h => BitVec.eq_of_toNat_eq ?_⟩
  rw [toNat_setLsb, ← h, toNat_getLsbD_zero]
  omega

/-- Settles O23: the written byte is twice the old bits 7 to 1 plus the data bit. -/
theorem lsbWriteMovesByAtMostOne : Obligations.LsbWriteMovesByAtMostOne := by
  intro old b
  have hold := toNat_getLsbD_zero old
  have hval := toNat_setLsb old b
  have hb := Bool.toNat_le b
  have hint (x : Bool) : (if x then 1 else 0 : Int) = x.toNat := by cases x <;> rfl
  refine ⟨setLsb_getLsbD_zero old b, by omega, ?_⟩
  rw [hint, hint]
  omega

/-! ## When `EMBED` completes, and when it succeeds -/

variable {s t : State}

/-- In the reference configuration the image alone can refuse `EMBED`: every `PAYLEN` is within `PAY_CAP` (R272). -/
theorem exec_embed_eq (hN : pixelCount s ≤ Config.maxPixels) : exec .embed s = .next (embedNext s) :=
  exec_of_premise ((embedPremise_eq_none _ s).2 ⟨hN, toNat_word_le s.paylen⟩)

/-- `Fits` is to be within the embed capacity (R106). -/
theorem le_embedCap_iff (L N : Nat) : (L : Int) ≤ embedCap N ↔ fits L N = true := by
  rw [fits_iff, embedCap, pixelCap, slots, le_min_iff]
  simp only [Config.slotsPerPixel, Config.embedLimit]
  omega

/-- Settles O24: `EMBED` completes, and with `NONE` exactly when the payload fits. -/
theorem embedSucceedsExactlyWithinCapacity : Obligations.EmbedSucceedsExactlyWithinCapacity := by
  intro s hN
  refine ⟨?_, le_embedCap_iff _ _⟩
  rw [exec_embed_eq hN, le_embedCap_iff, ← embedNext_status_eq_success]
  exact ⟨fun ⟨t, ht, hst⟩ => by cases ht; exact hst, fun hst => ⟨_, rfl, hst⟩⟩

end Sys2Proof.Machine
end

section
/-! PROOFS, family 41_pixel_codec: the image a successful `EMBED` leaves (R161, R162, R164). -/

namespace Sys2Proof.Machine

variable {s t : State}

/-! ## `DST` byte by byte and slot by slot -/

/-- A successful `EMBED` answers `embedNext` of a payload that fits. -/
theorem exec_embed_success (hx : exec .embed s = .next t) (hst : t.status = 0x002) :
    fits s.paylen.toNat (pixelCount s) = true ∧ t = embedNext s := by
  obtain ⟨-, rfl⟩ := exec_next hx
  exact ⟨embedNext_status_eq_success.1 hst, rfl⟩

/-- A slot below `T` lies in the image, when the payload fits. -/
theorem slotAddr_lt_of_fits (hf : fits s.paylen.toNat (pixelCount s) = true) {k : Nat}
    (hk : k < frameBits s.paylen.toNat) : slotAddr k < 4 * pixelCount s := by
  obtain ⟨-, hT⟩ := (fits_iff _ _).1 hf
  rw [frameBits_eq] at hk
  exact (slotAddr_lt_iff _ k).2 (by omega)

section
variable (hf : fits s.paylen.toNat (pixelCount s) = true) {i k : Nat}
include hf

/-- The closed form of R161 inside the image. -/
theorem memRead_embedNext_image (hi : i < 4 * pixelCount s) : memRead (embedNext s) .dst i =
    if i % 4 ≤ 2 ∧ 3 * (i / 4) + i % 4 < frameBits s.paylen.toNat then
      setLsb (memRead s .src i) (bit (frame (payload s)) (3 * (i / 4) + i % 4))
    else memRead s .src i := by
  rw [memRead_embedNext_of_fits s hf]
  simp [hi]

/-- A slot below `T` carries its frame bit over the source's bits 7 to 1. -/
theorem memRead_embedNext_slot (hk : k < frameBits s.paylen.toNat) :
    memRead (embedNext s) .dst (slotAddr k) = setLsb (memRead s .src (slotAddr k)) (bit (frame (payload s)) k) := by
  obtain ⟨hc, hslot⟩ := (slotAddr_eq_iff k _).1 rfl
  rw [memRead_embedNext_image hf (slotAddr_lt_of_fits hf hk), if_pos ⟨hc, hslot.trans_lt hk⟩, hslot]

/-- Every other byte of the image is the source's. -/
theorem memRead_embedNext_of_not_slot (hi : i < 4 * pixelCount s)
    (h : ¬ (i % 4 ≤ 2 ∧ 3 * (i / 4) + i % 4 < frameBits s.paylen.toNat)) :
    memRead (embedNext s) .dst i = memRead s .src i := by
  rw [memRead_embedNext_image hf hi, if_neg h]

/-- A byte of the image that `EMBED` changes is that of a slot below `T`. -/
theorem exists_slot_of_changed (hi : i < 4 * pixelCount s)
    (h : memRead (embedNext s) .dst i ≠ memRead s .src i) : ∃ k < frameBits s.paylen.toNat, slotAddr k = i := by
  obtain ⟨hc, hk⟩ := not_imp_comm.1 (memRead_embedNext_of_not_slot hf hi) h
  exact ⟨_, hk, (slotAddr_eq_iff _ i).2 ⟨hc, rfl⟩⟩

/-- A slot below `T` changes exactly when its bit disagrees with the frame (R164). -/
theorem memRead_embedNext_slot_ne_iff (hk : k < frameBits s.paylen.toNat) :
    memRead (embedNext s) .dst (slotAddr k) ≠ memRead s .src (slotAddr k) ↔
      slotBit s k ≠ bit (frame (payload s)) k := by
  rw [memRead_embedNext_slot hf hk]
  exact not_congr (setLsb_eq_self_iff _ _)

/-- Bits 7 to 1 of every byte of the image are the source's (R164). -/
theorem memRead_embedNext_upper_bits (hi : i < 4 * pixelCount s) :
    (memRead (embedNext s) .dst i).toNat / 2 = (memRead s .src i).toNat / 2 := by
  by_cases h : memRead (embedNext s) .dst i = memRead s .src i
  · rw [h]
  · obtain ⟨k, hk, rfl⟩ := exists_slot_of_changed hf hi h
    obtain ⟨-, hupper, -⟩ := lsbWriteMovesByAtMostOne (memRead s .src (slotAddr k)) (bit (frame (payload s)) k)
    rwa [memRead_embedNext_slot hf hk]

end

/-! ## The obligations -/

/-- Settles O25: a payload that does not fit raises, and else the image is the closed form. -/
theorem embedScattersTheFrame : Obligations.EmbedScattersTheFrame := by
  intro s hN _ N L T B
  have hfits := fits_iff L N
  split
  · next h => rw [exec_embed_eq hN, embedNext_of_not_fits (mt hfits.1 (by omega))]; rfl
  · next h =>
    have hf : fits L N = true := hfits.2 (by omega)
    obtain ⟨d, hd⟩ := embedNext_of_fits s hf
    obtain ⟨-, -, beyond, -⟩ := writesOnly_embedNext s
    have hB : B = frame (payload s) := by rw [frame, length_payload]; rfl
    refine ⟨d, ?_⟩
    intro t
    have ht : embedNext s = t := hd
    refine ⟨(exec_embed_eq hN).trans (congrArg _ ht), toNat_word (frameBits_lt_of_fits hf), ?_, ?_⟩
    · rw [hB, ← ht]
      exact fun i hi => memRead_embedNext_image hf hi
    · rw [← ht]
      exact beyond

/-- Settles O27: alpha bytes, later pixels and later slots are no slots below `T`, and a slot keeps its bits 7 to 1. -/
theorem untouchedPixelsAreCopies : Obligations.UntouchedPixelsAreCopies := by
  intro s t hx hst N T
  obtain ⟨hf, rfl⟩ := exec_embed_success hx hst
  obtain ⟨⟨hw, hh, -⟩, -, -, -⟩ := writesOnly_embedNext s
  refine ⟨fun p hp => ?_, fun i hi hlater => ?_, fun i hi _ hlater => ?_,
    fun i hi => memRead_embedNext_upper_bits hf hi, hw, hh⟩
  · exact memRead_embedNext_of_not_slot hf (by omega) (by omega)
  · exact memRead_embedNext_of_not_slot hf hi (by rw [frameBits_eq]; omega)
  · exact memRead_embedNext_of_not_slot hf hi fun h => absurd h.2 (Nat.not_lt.2 hlater)

/-- Settles O28: `slotAddr` is injective, and a slot below `T` changes exactly when it disagrees with the frame. -/
theorem embedChangesExactlyTheDisagreeingSlots : Obligations.EmbedChangesExactlyTheDisagreeingSlots := by
  intro s t hx hst N T changed disagreeing
  obtain ⟨hf, rfl⟩ := exec_embed_success hx hst
  have himage : changed = disagreeing.image slotAddr := by
    ext i
    simp only [changed, disagreeing, Finset.mem_filter, Finset.mem_image, Finset.mem_range]
    constructor
    · rintro ⟨hi, hne⟩
      obtain ⟨k, hk, rfl⟩ := exists_slot_of_changed hf hi hne
      exact ⟨k, ⟨hk, (memRead_embedNext_slot_ne_iff hf hk).1 hne⟩, rfl⟩
    · rintro ⟨k, ⟨hk, hne⟩, rfl⟩
      exact ⟨slotAddr_lt_of_fits hf hk, (memRead_embedNext_slot_ne_iff hf hk).2 hne⟩
  have hcard : changed.card = disagreeing.card := by
    rw [himage]
    exact Finset.card_image_of_injective _ fun _ _ => slotAddr_inj
  refine ⟨himage, hcard, ?_⟩
  calc changed.card = disagreeing.card := hcard
    _ ≤ (Finset.range T).card := Finset.card_filter_le _ _
    _ = T := Finset.card_range T

/-- Settles O29: the closed form of the scatter loop, read after any number of slot steps. -/
theorem embedIsItsSlotSteps : Obligations.EmbedIsItsSlotSteps := by
  intro s hN hf N T B after
  refine ⟨?_, fun k hk => ?_⟩
  · rw [exec_embed_eq hN, embedNext, if_pos hf]
    rfl
  · have hlt : k < 4294967296 := hk.trans_lt (frameBits_lt_of_fits hf)
    refine ⟨embedSlots_copyImage_cur B hlt, fun j hj => ?_, fun i hi hno => ?_⟩
    · obtain ⟨hc, hslot⟩ := (slotAddr_eq_iff j _).1 rfl
      rw [memRead_embedSlots_copyImage s B hlt, hslot]
      simp [hc, slotAddr_lt_of_fits hf hj]
    · rw [memRead_embedSlots_copyImage s B hlt, if_neg, if_pos ⟨rfl, hi⟩]
      rintro ⟨-, hc, hslot⟩
      exact hno _ hslot ((slotAddr_eq_iff _ i).2 ⟨hc, rfl⟩)

end Sys2Proof.Machine
end

section
/-! PROOFS, family 41_pixel_codec: each outcome of `EXTRACT`, and what it depends on (R165, R276). -/

namespace Sys2Proof.Machine

variable {c : Params} {s s' : State}

/-! ## Each outcome -/

/-- In the reference configuration the image alone can refuse `EXTRACT` (R272). -/
theorem exec_extract_eq (hN : pixelCount s ≤ Config.maxPixels) :
    exec .extract s = .next (extractNext Config.reference s) :=
  exec_of_premise ((extractPremise_eq_none _ s).2 hN)

/-- Settles O31: each branch of R165 decides what the header claims, nothing or `m` bytes. -/
theorem extractGathersThePayload : Obligations.ExtractGathersThePayload := by
  intro s hN N empty
  have hx := exec_extract_eq hN
  have hheader : hdrParse ((List.range 8).map fun i => gatherByte s (8 * i)) =
      Config.reference.hdrParse (gatherHeader s) := rfl
  have hempty (h0 : ¬ 3 * N < 64) (hc : headerClaim Config.reference s = none) : empty 64 :=
    hx.trans (congrArg _ (extractNext_of_claim_none h0 hc))
  rw [hheader]
  split
  · next h0 => exact hx.trans (congrArg _ (extractNext_of_small h0))
  · next h0 =>
    split
    · next hp => exact hempty h0 (headerClaim_of_parse_none hp)
    · next m hp =>
      split_ifs with hm hover
      · exact hempty h0 (headerClaim_of_implausible hp hm)
      · exact hempty h0 (headerClaim_of_overrun_empty hp hover rfl)
      · obtain ⟨k, rfl⟩ := Int.eq_ofNat_of_zero_le (show 0 ≤ m by omega)
        obtain ⟨d, hd, hlen, hcur, hin, hout⟩ := extractNext_returns h0 (headerClaim_of_within hp hm hover)
        refine ⟨d, hx.trans (congrArg _ hd), by exact_mod_cast hlen, by exact_mod_cast hcur, fun j hj => ?_,
          fun j hj => hout j (by exact_mod_cast hj)⟩
        exact hin j (by exact_mod_cast hj)

/-! ## `EXTRACT` reads slot bits alone (R276) -/

/-- A gathered byte is a function of its eight slot bits (R104). -/
theorem gatherByte_congr {k0 : Nat} (h : ∀ t < 8, slotBit s' (k0 + t) = slotBit s (k0 + t)) :
    gatherByte s' k0 = gatherByte s k0 :=
  byte_ext fun t ht => by rw [gatherByte, gatherByte, packByte_getLsbD _ ht, packByte_getLsbD _ ht, h t ht]

/-- The header is a function of the first 64 slot bits. -/
theorem gatherHeader_congr (h : ∀ k < 64, slotBit s' k = slotBit s k) : gatherHeader s' = gatherHeader s :=
  List.map_congr_left fun j hj => gatherByte_congr fun t ht => h _ (by
    have hj : j < 8 := List.mem_range.1 hj
    omega)

/-- The claim is a function of the pixel count and the header. -/
theorem headerClaim_congr (hN : pixelCount s' = pixelCount s) (hh : gatherHeader s' = gatherHeader s) :
    headerClaim c s' = headerClaim c s := by
  rw [headerClaim, headerClaim, hN, hh]

/-- `CUR`, `PAYLEN` and the payload after `EXTRACT` are functions of the pixel count and the slot bits. -/
theorem extractNext_congr (hN : pixelCount s' = pixelCount s)
    (hbits : ∀ k < 3 * pixelCount s, slotBit s' k = slotBit s k) :
    (extractNext c s').cur = (extractNext c s).cur ∧ (extractNext c s').paylen = (extractNext c s).paylen ∧
      ∀ j < (extractNext c s).paylen.toNat, memRead (extractNext c s') .pay j = memRead (extractNext c s) .pay j := by
  by_cases h0 : 3 * pixelCount s < 64
  · rw [extractNext_of_small h0, extractNext_of_small (hN ▸ h0)]
    exact ⟨rfl, rfl, fun j hj => absurd hj (Nat.not_lt_zero j)⟩
  · have h0' : ¬ 3 * pixelCount s' < 64 := hN ▸ h0
    have hclaim := headerClaim_congr (c := c) hN (gatherHeader_congr fun k hk => hbits k (by omega))
    cases hc : headerClaim c s with
    | none =>
      rw [extractNext_of_claim_none h0 hc, extractNext_of_claim_none h0' (hclaim.trans hc)]
      exact ⟨rfl, rfl, fun j hj => absurd hj (Nat.not_lt_zero j)⟩
    | some m =>
      obtain ⟨-, hm⟩ := headerClaim_le c s (by omega) hc
      obtain ⟨d, hd, hlen, -, hin, -⟩ := extractNext_returns h0 hc
      obtain ⟨d', hd', -, -, hin', -⟩ := extractNext_returns h0' (hclaim.trans hc)
      rw [hd, hd']
      refine ⟨rfl, rfl, fun j hj => ?_⟩
      rw [hlen] at hj
      rw [hin j hj, hin' j hj]
      exact gatherByte_congr fun t ht => hbits _ (by omega)

/-- Settles O34: with equal pixel counts `EXTRACT` completes on both, and its result is that of the slot bits. -/
theorem extractReadsOnlySlotBits : Obligations.ExtractReadsOnlySlotBits := by
  intro s s' t hN hbits hx
  obtain ⟨hp, rfl⟩ := exec_next hx
  have hN' : pixelCount s' ≤ Config.maxPixels := hN ▸ (extractPremise_eq_none Config.reference s).1 hp
  exact ⟨_, exec_extract_eq hN', (extractNext_status _ s').trans (extractNext_status _ s).symm,
    extractNext_congr hN hbits⟩

end Sys2Proof.Machine
end

section
/-! PROOFS, family 41_pixel_codec: `EXTRACT` one slot at a time (R167). Eight gather steps make one byte; the header is
eight such bytes, the payload `m`. -/

namespace Sys2Proof.Machine

variable {s : State} {g : Gather} {h : List Byte} {k : Nat}

/-! ## Updates the steps make -/

/-- A register holds its own value. -/
theorem setCur_of_toNat_eq (hk : s.cur.toNat = k) : s.setCur k = s := by
  subst hk
  simp [State.setCur]

@[simp] theorem memWrite_setCur (s : State) (n : Nat) (σ : Store) (a : Nat) (v : Byte) :
    memWrite (s.setCur n) σ a v = (memWrite s σ a v).setCur n := by
  simp [memWrite]

theorem writeBytes_append_singleton (s : State) (σ : Store) (a : Nat) (S : List Byte) (v : Byte) :
    writeBytes s σ a (S ++ [v]) = memWrite (writeBytes s σ a S) σ (a + S.length) v := by
  induction S generalizing s a with
  | nil => rfl
  | cons w S ih =>
    rw [List.cons_append, writeBytes, ih, List.length_cons, Nat.add_right_comm, Nat.add_assoc]
    rfl

/-- Writes to another store leave the gathered bytes as they were. -/
theorem gatherByte_writeBytes {σ : Store} (hσ : .src ≠ σ) (a : Nat) (S : List Byte) (k : Nat) :
    gatherByte (writeBytes s σ a S) k = gatherByte s k :=
  gatherByte_congr fun t _ => by rw [slotBit, sameBytes_writeBytes_of_ne a S hσ, slotBit]

theorem gatherPayload_succ (s : State) (m : Nat) :
    gatherPayload s (m + 1) = gatherPayload s m ++ [gatherByte s (64 + 8 * m)] := by
  simp [gatherPayload, List.range_succ]

/-! ## The accumulator -/

/-- The accumulator after the bits of the `n` slots from `k0` on. -/
def gatherAcc (s : State) (k0 n : Nat) : Byte :=
  (List.range n).foldl (fun acc t => shiftIn acc (slotBit s (k0 + t))) 0

theorem gatherAcc_succ (s : State) (k0 n : Nat) :
    gatherAcc s k0 (n + 1) = shiftIn (gatherAcc s k0 n) (slotBit s (k0 + n)) := by
  simp [gatherAcc, List.range_succ]

theorem shiftIn_getLsbD (acc : Byte) (b : Bool) {i : Nat} (hi : i < 8) :
    (shiftIn acc b).getLsbD i = if i = 0 then b else acc.getLsbD (i - 1) := by
  cases i with
  | zero => cases b <;> simp [shiftIn]
  | succ i => cases b <;> simp [shiftIn, hi, Nat.lt_of_succ_lt hi]

/-- The bit of slot `t` has been shifted as often as slots came after it. -/
theorem gatherAcc_getLsbD (s : State) (k0 : Nat) {n t : Nat} (hn : n ≤ 8) (ht : t < n) :
    (gatherAcc s k0 n).getLsbD (n - 1 - t) = slotBit s (k0 + t) := by
  induction n with
  | zero => omega
  | succ n ih =>
    rw [gatherAcc_succ, shiftIn_getLsbD _ _ (by omega)]
    by_cases htn : t = n
    · subst htn
      rw [if_pos (by omega)]
    · rw [if_neg (by omega), ← ih (by omega) (by omega)]
      congr 1
      omega

/-- Eight slots make the gathered byte of R104. -/
theorem shiftIn_gatherAcc_seven (s : State) (k0 : Nat) :
    shiftIn (gatherAcc s k0 7) (slotBit s (k0 + 7)) = gatherByte s k0 := by
  rw [← gatherAcc_succ]
  refine byte_ext fun t ht => ?_
  rw [gatherByte, packByte_getLsbD _ ht]
  exact gatherAcc_getLsbD s k0 le_rfl ht

/-! ## One gather step -/

section
variable (hk : s.cur.toNat = k)
include hk

/-- Inside a byte a step fills the accumulator. -/
theorem gatherSlot_within_byte (h8 : (k + 1) % 8 ≠ 0) :
    gatherSlot g s = (⟨shiftIn g.acc (slotBit s k), g.header⟩, s.setCur (k + 1)) := by
  subst hk
  exact if_pos h8

/-- At the end of a header byte it emits the accumulator to the header. -/
theorem gatherSlot_header (h8 : (k + 1) % 8 = 0) (hle : k + 1 ≤ 64) :
    gatherSlot g s = (⟨0, g.header ++ [shiftIn g.acc (slotBit s k)]⟩, s.setCur (k + 1)) := by
  subst hk
  exact (if_neg (not_not.2 h8)).trans (if_pos hle)

/-- At the end of a payload byte it emits the accumulator to `PAY`. -/
theorem gatherSlot_payload (h8 : (k + 1) % 8 = 0) (hgt : 64 < k + 1) : gatherSlot g s =
    (⟨0, g.header⟩, (memWrite s .pay ((k + 1 - 64) / 8 - 1) (shiftIn g.acc (slotBit s k))).setCur (k + 1)) := by
  subst hk
  rw [← memWrite_setCur]
  exact (if_neg (not_not.2 h8)).trans (if_neg (Nat.not_le.2 hgt))

end

/-! ## Runs of gather steps -/

theorem gatherSlots_add (m n : Nat) (g : Gather) (s : State) :
    gatherSlots (m + n) g s = gatherSlots n (gatherSlots m g s).1 (gatherSlots m g s).2 := by
  induction m generalizing g s with
  | zero => rw [Nat.zero_add]; rfl
  | succ m ih => rw [Nat.succ_add]; exact ih _ _

/-- The step at the end of a run. -/
theorem gatherSlots_succ (n : Nat) (g : Gather) (s : State) :
    gatherSlots (n + 1) g s = gatherSlot (gatherSlots n g s).1 (gatherSlots n g s).2 :=
  gatherSlots_add n 1 g s

section
variable (hk : s.cur.toNat = k) (h8 : k % 8 = 0) (hlt : k + 8 < 4294967296)
include hk h8 hlt

/-- Up to seven steps from a byte boundary fill the accumulator and advance `CUR`. -/
theorem gatherSlots_within_byte {n : Nat} (hn : n < 8) :
    gatherSlots n ⟨0, h⟩ s = (⟨gatherAcc s k n, h⟩, s.setCur (k + n)) := by
  induction n with
  | zero => rw [Nat.add_zero, setCur_of_toNat_eq hk]; rfl
  | succ n ih =>
    have hcur : (s.setCur (k + n)).cur.toNat = k + n := toNat_word (by omega)
    rw [gatherSlots_succ, ih (by omega), gatherSlot_within_byte hcur (by omega), gatherAcc_succ, slotBit_setCur,
      setCur_setCur, Nat.add_assoc]

/-- The eighth step emits the byte to the header. -/
theorem gatherSlots_eight_header (hle : k + 8 ≤ 64) :
    gatherSlots 8 ⟨0, h⟩ s = (⟨0, h ++ [gatherByte s k]⟩, s.setCur (k + 8)) := by
  have hcur : (s.setCur (k + 7)).cur.toNat = k + 7 := toNat_word (by omega)
  rw [gatherSlots_succ, gatherSlots_within_byte hk h8 hlt (by decide),
    gatherSlot_header hcur (by omega) (by omega), slotBit_setCur, setCur_setCur, shiftIn_gatherAcc_seven]

/-- The eighth step emits the byte to `PAY`. -/
theorem gatherSlots_eight_payload (hle : 64 ≤ k) :
    gatherSlots 8 ⟨0, h⟩ s = (⟨0, h⟩, (memWrite s .pay ((k - 64) / 8) (gatherByte s k)).setCur (k + 8)) := by
  have hcur : (s.setCur (k + 7)).cur.toNat = k + 7 := toNat_word (by omega)
  have hindex : (k + 7 + 1 - 64) / 8 - 1 = (k - 64) / 8 := by omega
  rw [gatherSlots_succ, gatherSlots_within_byte hk h8 hlt (by decide),
    gatherSlot_payload hcur (by omega) (by omega), slotBit_setCur, memWrite_setCur, setCur_setCur,
    shiftIn_gatherAcc_seven, hindex]

end

/-- `8 * n` steps from `CUR = 0` gather `n` bytes of the header. -/
theorem gatherSlots_header (hcur : s.cur.toNat = 0) {n : Nat} (hn : n ≤ 8) : gatherSlots (8 * n) ⟨0, []⟩ s =
    (⟨0, (List.range n).map fun i => gatherByte s (8 * i)⟩, s.setCur (8 * n)) := by
  induction n with
  | zero => rw [setCur_of_toNat_eq hcur]; rfl
  | succ n ih =>
    have hstep : (s.setCur (8 * n)).cur.toNat = 8 * n := toNat_word (by omega)
    rw [Nat.mul_succ, gatherSlots_add, ih (by omega), gatherSlots_eight_header hstep (by omega) (by omega) (by omega)]
    simp [List.range_succ]

/-- `8 * m` steps from `CUR = 64` gather `m` bytes into `PAY`. -/
theorem gatherSlots_payload (hcur : s.cur.toNat = 64) {m : Nat} (hm : m ≤ 1000000) : gatherSlots (8 * m) ⟨0, h⟩ s =
    (⟨0, h⟩, (writeBytes s .pay 0 (gatherPayload s m)).setCur (64 + 8 * m)) := by
  induction m with
  | zero => rw [Nat.mul_zero, Nat.add_zero, gatherPayload, List.range_zero, List.map_nil, writeBytes,
      setCur_of_toNat_eq hcur, gatherSlots]
  | succ m ih =>
    have hstep : ((writeBytes s .pay 0 (gatherPayload s m)).setCur (64 + 8 * m)).cur.toNat = 64 + 8 * m :=
      toNat_word (by omega)
    have hindex : (64 + 8 * m - 64) / 8 = 0 + (gatherPayload s m).length := by rw [length_gatherPayload]; omega
    rw [Nat.mul_succ, gatherSlots_add, ih (by omega),
      gatherSlots_eight_payload hstep (by omega) (by omega) (by omega), hindex, gatherByte_setCur,
      gatherByte_writeBytes (by decide), memWrite_setCur, setCur_setCur, ← writeBytes_append_singleton,
      ← gatherPayload_succ, Nat.add_assoc]

/-! ## The command -/

/-- The header steps of the command. -/
theorem gatherSlots_headerBits (s : State) :
    gatherSlots Config.headerBits ⟨0, []⟩ (s.setCur 0) = (⟨0, gatherHeader s⟩, s.setCur 64) := by
  have hcur : (s.setCur 0).cur.toNat = 0 := rfl
  refine (gatherSlots_header hcur (le_refl 8)).trans ?_
  rw [setCur_setCur, ← gatherHeader_setCur s 0]
  rfl

/-- The payload steps of the command, and its end. -/
theorem gatherBytes_eq {m : Nat} (hm : m ≤ 1000000) : gatherBytes m ⟨0, h⟩ (s.setCur 64) =
    (((writeBytes s .pay 0 (gatherPayload s m)).setCur (64 + 8 * m)).setPaylen m).setStatus 0x002 := by
  have hcur : (s.setCur 64).cur.toNat = 64 := rfl
  rw [gatherBytes, gatherSlots_payload hcur hm, finish_eq, gatherPayload_setCur, writeBytes_setCur, setCur_setCur]

/-- After the header the steps do what it claims. -/
theorem extractBySlots_eq (c : Params) (s : State) : extractBySlots c s = extractNext c s := by
  by_cases h0 : 3 * pixelCount s < 64
  · rw [extractNext_of_small h0]
    exact if_pos h0
  · rw [extractBySlots, if_neg (show ¬ slots (pixelCount s) < Config.headerBits from h0), gatherSlots_headerBits]
    have hclaimed (m : Nat) (hc : headerClaim c s = some m) :
        gatherBytes m ⟨0, gatherHeader s⟩ (s.setCur 64) = extractNext c s := by
      rw [extractNext_of_claim_some h0 hc, gatherBytes_eq (headerClaim_le c s (by omega) hc).1]
    have hnothing (hc : headerClaim c s = none) : extractNothing (s.setCur 64) = extractNext c s :=
      (extractNext_of_claim_none h0 hc).symm
    dsimp only
    split
    · next hp => exact hnothing (headerClaim_of_parse_none hp)
    · next m hp =>
      split_ifs with hm hover
      · exact hnothing (headerClaim_of_implausible hp hm)
      · split
        · next ho => exact hnothing (headerClaim_of_overrun_empty hp hover ho)
        · next ho => exact hclaimed _ (headerClaim_of_overrun_partial hp hm hover ho)
      · exact hclaimed _ (headerClaim_of_within hp hm hover)

/-- Settles O33: the command and its gather steps have one closed form. -/
theorem extractIsItsSlotSteps : Obligations.ExtractIsItsSlotSteps := by
  have hall (c : Params) (s : State) (hN : pixelCount s ≤ c.maxPixels) :
      execWith c .extract s = .next (extractBySlots c s) := by
    rw [extractBySlots_eq]
    exact execWith_of_premise ((extractPremise_eq_none c s).2 hN)
  exact ⟨fun s hN => by rw [← execWith_reference]; exact hall Config.reference s hN, hall⟩

end Sys2Proof.Machine
end

section
/-! PROOFS, family 41_pixel_codec: `EMBED`, the image taken back, `EXTRACT` (R169). -/

namespace Sys2Proof.Machine

variable {s u : State}

/-! ## Extracting a frame -/

/-- The slots of `u` carry the frame of `P`. -/
def CarriesFrame (u : State) (P : List Byte) : Prop := ∀ k < frameBits P.length, slotBit u k = bit (frame P) k

section
variable {P : List Byte} (hframe : CarriesFrame u P)
include hframe

/-- Each byte of the frame is gathered again (R104). -/
theorem gatherByte_of_carriesFrame {j : Nat} (hj : j < (frame P).length) :
    gatherByte u (8 * j) = (frame P).getD j 0 := by
  rw [length_frame] at hj
  refine gatherByteInvertsBit u (frame P) j (by rwa [length_frame]) fun t ht => hframe _ ?_
  rw [frameBits_eq]
  omega

theorem gatherHeader_of_carriesFrame : gatherHeader u = hdr P.length := by
  refine List.ext_getElem (by simp) fun i hi hi' => ?_
  rw [length_hdr] at hi'
  simp only [gatherHeader, List.getElem_map, List.getElem_range]
  rw [gatherByte_of_carriesFrame hframe (by rw [length_frame]; omega), frame,
    List.getD_append _ _ _ _ (by rwa [length_hdr]), List.getD_eq_getElem]

theorem gatherPayload_of_carriesFrame : gatherPayload u P.length = P := by
  refine List.ext_getElem (by simp) fun i hi hi' => ?_
  have hslot : Config.headerBits + 8 * i = 8 * (8 + i) := by simp only [Config.headerBits]; omega
  simp only [gatherPayload, List.getElem_map, List.getElem_range, hslot]
  rw [gatherByte_of_carriesFrame hframe (by rw [length_frame]; omega), frame,
    List.getD_append_right _ _ _ _ (by simp), length_hdr, Nat.add_sub_cancel_left, List.getD_eq_getElem]

/-- `EXTRACT` delivers the payload whose frame the image carries, be it empty (R165). -/
theorem extractNext_of_carriesFrame (hfit : 8 * P.length + 64 ≤ 3 * pixelCount u) (hmax : P.length ≤ 1000000) :
    extractNext Config.reference u = deliverPayload P (u.setCur (64 + 8 * P.length)) := by
  have h0 : ¬ 3 * pixelCount u < 64 := by omega
  have hparse : Config.reference.hdrParse (gatherHeader u) = some (P.length : Int) := by
    rw [gatherHeader_of_carriesFrame hframe]
    exact headerParsesBack P.length (by omega)
  by_cases hP : P.length = 0
  · have hclaim := headerClaim_of_implausible hparse (.inl (by omega))
    rw [extractNext_of_claim_none h0 hclaim, List.length_eq_zero_iff.1 hP]
    rfl
  · have hclaim := headerClaim_of_within hparse (by omega) (by omega)
    rw [Int.toNat_natCast] at hclaim
    rw [extractNext_of_claim_some h0 hclaim, gatherPayload_of_carriesFrame hframe, deliverPayload, finish_eq,
      writeBytes_setCur]

end

/-! ## The host's writes between the two commands -/

/-- The host takes the image of `DST` for the source image of the next command (R264). -/
def reloaded (s : State) (N : Nat) : State := writeBytes s .src 0 (readBytes s .dst 0 (Config.channels * N))

theorem memRead_reloaded_src (s : State) {N i : Nat} (hi : i < 4 * N) :
    memRead (reloaded s N) .src i = memRead s .dst i := by
  have hlen : i < (readBytes s .dst 0 (Config.channels * N)).length := by rwa [length_readBytes]
  have hread := memRead_writeBytes_inside s .src 0 hlen
  rwa [getElem_readBytes, Nat.zero_add] at hread

/-- The host describes the image by another width and height, and puts other bytes into `PAY` and `PAYLEN`. -/
def redescribed (s : State) (w h n : Word) (junk : List Byte) : State :=
  setReg (writeBytes (setReg (setReg s 2 w) 3 h) .pay 0 junk) 4 n

section
variable {w h n : Word} {junk : List Byte}

theorem pixelCount_redescribed : pixelCount (redescribed s w h n junk) = w.toNat * h.toNat := by
  obtain ⟨hw, hh, -⟩ := sameSetup_writeBytes (s := setReg (setReg s 2 w) 3 h) (σ := .pay) 0 junk
  have hw : (redescribed s w h n junk).width = w := hw
  have hh : (redescribed s w h n junk).height = h := hh
  rw [pixelCount, hw, hh]

theorem sameBytes_src_redescribed : SameBytes .src s (redescribed s w h n junk) := fun a =>
  calc memRead (redescribed s w h n junk) .src a
      _ = memRead (setReg (setReg s 2 w) 3 h) .src a := sameBytes_setReg_writeBytes 4 n junk (by decide) a
      _ = memRead (setReg s 2 w) .src a := sameBytes_setReg _ 3 h .src a
      _ = memRead s .src a := sameBytes_setReg _ 2 w .src a

/-- After `EMBED` and the host's writes the source image carries the payload's frame. -/
theorem carriesFrame_redescribed (hf : fits s.paylen.toNat (pixelCount s) = true) :
    CarriesFrame (redescribed (reloaded (embedNext s) (pixelCount s)) w h n junk) (payload s) := by
  intro k hk
  rw [length_payload] at hk
  rw [slotBit, sameBytes_src_redescribed, memRead_reloaded_src _ (slotAddr_lt_of_fits hf hk),
    memRead_embedNext_slot hf hk, setLsb_getLsbD_zero]

theorem hostAct_reloadImage {N : Nat} (hidle : s.idle) (hN : N ≤ Config.maxPixels) :
    hostAct (reloadImage N) s = .next (reloaded s N) := by
  have hcap : Config.channels * N ≤ 4 * Config.maxPixels := Nat.mul_le_mul_left 4 hN
  exact hostAct_copy_inside hidle hcap hcap

/-- The host describes the image anew and issues `EXTRACT`. -/
theorem runActions_redescribe_extract (hidle : s.idle) (hN : w.toNat * h.toNat ≤ Config.maxPixels)
    (hjunk : junk.length ≤ Config.payCap) :
    runActions [.regWrite 2 w, .regWrite 3 h, .fill .pay 0 junk, .regWrite 4 n, cmd .extract] s =
      .next (extractNext Config.reference (redescribed s w h n junk)) := by
  have hidle₂ := idle_setReg 2 w hidle
  have hidle₃ := idle_setReg 3 h hidle₂
  have hidlePay := idle_writeBytes .pay junk hidle₃
  have hfill : 0 + junk.length ≤ Config.reference.storeSize .pay := by rwa [Nat.zero_add]
  rw [runActions_cons_of_next (hostAct_regWrite_of_idle w hidle (by decide)),
    runActions_cons_of_next (hostAct_regWrite_of_idle h hidle₂ (by decide)),
    runActions_cons_of_next (hostAct_fill_inside hidle₃ hfill),
    runActions_cons_of_next (hostAct_regWrite_of_idle n hidlePay (by decide)), runActions_singleton,
    hostAct_cmd_of_idle .extract (idle_setReg 4 n hidlePay)]
  exact exec_extract_eq (by rwa [← redescribed, pixelCount_redescribed])

end

/-- Settles O35: the image `EXTRACT` meets carries the payload's frame, and nothing else it reads. -/
theorem embedThenExtractReturnsThePayload : Obligations.EmbedThenExtractReturnsThePayload := by
  intro s w h n junk hidle hN hfit hmax hwh hjunk
  have hx := exec_embed_eq hN
  have hidle' := idle_of_exec_next hx
  have hreloaded : (reloaded (embedNext s) (pixelCount s)).idle := idle_writeBytes _ _ hidle'
  have hf : fits s.paylen.toNat (pixelCount s) = true := (fits_iff _ _).2 (by omega)
  have hlt : (payload s).length < 4294967296 := by rw [length_payload]; omega
  have hextract := extractNext_of_carriesFrame (carriesFrame_redescribed (w := w) (h := h) (n := n) (junk := junk) hf)
    (by rwa [length_payload, pixelCount_redescribed, hwh]) (by rwa [length_payload])
  rw [runActions_cons_of_next ((hostAct_cmd_of_idle .embed hidle).trans hx),
    runActions_cons_of_next (hostAct_reloadImage hidle' hN),
    runActions_redescribe_extract hreloaded (hwh.trans_le hN) hjunk, hextract]
  refine ⟨_, rfl, rfl, BitVec.eq_of_toNat_eq ?_, payload_deliverPayload hlt⟩
  rw [toNat_paylen_deliverPayload hlt, length_payload]

end Sys2Proof.Machine
end

section
/-! PROOFS, family 42_pipelines: the bounds on the message, and the two pipelines as the next states of their commands
(R200, R201, R203, R204). -/

namespace Sys2Proof.Machine

variable {s t e : State}

/-! ## The bounds on the message (R106, R204) -/

/-- To be within the round-trip capacity is to fit the image and to be accepted by `EXTRACT` (R106). -/
theorem le_roundTripCap_iff (M N : Nat) : (M : Int) ≤ roundTripCap N ↔ 8 * M + 64 ≤ 3 * N ∧ M ≤ 1000000 := by
  rw [roundTripCap, pixelCap, slots, le_min_iff]
  simp only [Config.slotsPerPixel, Config.extractMax]
  omega

/-- Settles O57: both lines bound what is embedded by the round-trip capacity, the message itself or its record, which
is a nonce and a tag longer. -/
theorem largestRoundTripMessage : Obligations.LargestRoundTripMessage := by
  refine fun c M N => ⟨(le_roundTripCap_iff M N).symm, ?_⟩
  rw [← le_roundTripCap_iff, recordLen]
  omega

/-! ## The two pipelines -/

/-- `ENCODE` is `EMBED` of what a successful `ENCRYPT` leaves (R200). -/
theorem runActions_encode (hidle : s.idle) (hx : exec .encrypt s = .next e) (hst : e.status = 0x002)
    (hN : pixelCount e ≤ Config.maxPixels) : runActions encodeSequence s = .next (embedNext e) := by
  obtain ⟨hencode, -⟩ := pipelinesAreTheirCommands s e hidle
  have herr : e.err = 0 := by rw [State.err, hst]; rfl
  rw [hencode hx, if_pos herr, exec_embed_eq hN]

/-- `DECODE` is `DECRYPT` of what `EXTRACT` leaves (R201). -/
theorem runActions_decode (hidle : s.idle) (hx : exec .extract s = .next e) :
    runActions decodeSequence s = .next (decryptNext Config.reference e) := by
  obtain ⟨-, hdecode⟩ := pipelinesAreTheirCommands s e hidle
  rw [hdecode hx, exec_decrypt_eq]

/-- Settles O56: the empty payload is the empty message, and with a password it is shorter than a nonce. -/
theorem decodeOfNoMessage : Obligations.DecodeOfNoMessage := by
  intro s e hidle hx hempty
  obtain ⟨hframe, -⟩ := extractFrame
  obtain ⟨⟨-, -, hW⟩, hM, -⟩ := hframe s e hx
  have hP : payload e = [] := by
    rw [payload, hempty]
    rfl
  refine ⟨_, runActions_decode hidle hx, decryptNext_paylen.trans hempty, fun hpwd => ?_, fun hpwd => ?_⟩
  · have hres : decryptResult Config.reference (password e) (payload e) = .ok [] := by
      rw [password_eq_nil.2 (hW.trans hpwd), hP, decryptResult_nil]
    rw [decryptNext_of_ok hres]
    exact ⟨rfl, rfl⟩
  · have hne : password e ≠ [] := mt password_eq_nil.1 (hW ▸ hpwd)
    have hshort : (payload e).length < Config.reference.nonceSize := by
      rw [hP]
      decide
    rw [decryptNext_of_error (decryptResult_of_short hne hshort)]
    exact ⟨rfl, hM⟩

end Sys2Proof.Machine
end

section
/-! PROOFS, family 42_pipelines: `ENCODE`, the image taken back, `DECODE` (R202). -/

namespace Sys2Proof.Machine

variable {c : Params} {s t e : State}

/-! ## `ENCRYPT` for the pipeline -/

/-- With the draw successful where one is made, `ENCRYPT` succeeds (R136). -/
theorem encryptNext_status_eq_success (hdraw : s.pwdlen ≠ 0 → rngNextAnswer c s ≠ .fail) :
    (encryptNext c s).status = 0x002 := by
  obtain ⟨record, hr⟩ := exists_encryptResult hdraw
  rw [encryptNext_of_some hr]
  rfl

/-! ## The size of the image and the password outlive what does not write them -/

namespace WritesOnly

variable {σ : Store} {n : Nat}

theorem pixelCount_eq (h : WritesOnly σ n s t) : pixelCount t = pixelCount s := by
  obtain ⟨hw, hh, -⟩ := h.setup
  rw [pixelCount, pixelCount, hw, hh]

theorem password_eq (h : WritesOnly σ n s t) (hσ : .pwd ≠ σ) : password t = password s := by
  obtain ⟨-, -, hW⟩ := h.setup
  exact password_congr hW (h.others .pwd hσ)

end WritesOnly

theorem writesOnly_reloaded (s : State) (N : Nat) : WritesOnly .src (4 * N) s (reloaded s N) :=
  (WritesOnly.refl s).writeBytes (length_readBytes s .dst 0 (4 * N)).le

theorem pixelCount_withMessage (s : State) (bytes : List Byte) (n : Word) :
    pixelCount (withMessage s bytes n) = pixelCount s :=
  ((WritesOnly.refl s).writeBytes (σ := .msg) (le_refl bytes.length)).pixelCount_eq

/-! ## From `EMBED` to `EXTRACT` -/

/-- The block as `DECODE` meets it: `EMBED` has run, and the host has taken its image back and put other bytes into
`MSG` and `MSGLEN`. -/
def handedOver (e : State) (bytes : List Byte) (n : Word) : State :=
  withMessage (reloaded (embedNext e) (pixelCount e)) bytes n

section
variable (e) (bytes : List Byte) (n : Word)

theorem pixelCount_handedOver : pixelCount (handedOver e bytes n) = pixelCount e := by
  rw [handedOver, pixelCount_withMessage, (writesOnly_reloaded _ _).pixelCount_eq,
    (writesOnly_embedNext e).pixelCount_eq]

theorem password_handedOver : password (handedOver e bytes n) = password e := by
  rw [handedOver, password_withMessage, (writesOnly_reloaded _ _).password_eq (by decide),
    (writesOnly_embedNext e).password_eq (by decide)]

variable {e bytes n}

/-- The source image carries the frame of the payload that was embedded. -/
theorem carriesFrame_handedOver (hf : fits e.paylen.toNat (pixelCount e) = true) :
    CarriesFrame (handedOver e bytes n) (payload e) := by
  intro k hk
  rw [length_payload] at hk
  have hsrc : SameBytes .src (reloaded (embedNext e) (pixelCount e)) (handedOver e bytes n) :=
    sameBytes_setReg_writeBytes 5 n bytes (by decide)
  rw [slotBit, hsrc, memRead_reloaded_src _ (slotAddr_lt_of_fits hf hk), memRead_embedNext_slot hf hk,
    setLsb_getLsbD_zero]

/-- `EXTRACT` brings the payload back (R169). -/
theorem payload_extractNext_handedOver (hfit : 8 * e.paylen.toNat + 64 ≤ 3 * pixelCount e)
    (hmax : e.paylen.toNat ≤ 1000000) :
    payload (extractNext Config.reference (handedOver e bytes n)) = payload e := by
  have hf : fits e.paylen.toNat (pixelCount e) = true := (fits_iff _ _).2 (by omega)
  rw [extractNext_of_carriesFrame (carriesFrame_handedOver hf)
    (by rwa [length_payload, pixelCount_handedOver]) (by rwa [length_payload])]
  exact payload_deliverPayload (by rw [length_payload]; omega)

end

/-! ## The scripts -/

theorem runActions_append_of_next {as bs : List HostAction} (h : runActions as s = .next t) :
    runActions (as ++ bs) s = runActions bs t := by
  rw [runActions_append, h]

/-- The host takes the image back and puts other bytes into `MSG` and `MSGLEN`. -/
theorem runActions_reload_fill {N : Nat} {bytes : List Byte} (n : Word) (hidle : s.idle) (hN : N ≤ Config.maxPixels)
    (hbytes : bytes.length ≤ Config.msgCap) :
    (withMessage (reloaded s N) bytes n).idle ∧
      runActions [reloadImage N, .fill .msg 0 bytes, .regWrite 5 n] s = .next (withMessage (reloaded s N) bytes n) := by
  have hreloaded : (reloaded s N).idle := idle_writeBytes _ _ hidle
  have hfilled := idle_writeBytes .msg bytes hreloaded
  have hfill : 0 + bytes.length ≤ Config.reference.storeSize .msg := by rwa [Nat.zero_add]
  refine ⟨idle_setReg 5 n hfilled, ?_⟩
  rw [runActions_cons_of_next (hostAct_reloadImage hidle hN),
    runActions_cons_of_next (hostAct_fill_inside hreloaded hfill), runActions_singleton,
    hostAct_regWrite_of_idle n hfilled (by decide)]
  rfl

/-- `ENCODE` with a successful `ENCRYPT`, the host's hand-over, `DECODE`: the next states of their commands in order. -/
theorem runActions_encode_decode {bytes : List Byte} (n : Word) (hidle : s.idle) (hx : exec .encrypt s = .next e)
    (hst : e.status = 0x002) (hN : pixelCount e ≤ Config.maxPixels) (hbytes : bytes.length ≤ Config.msgCap) :
    runActions (encodeSequence ++ [reloadImage (pixelCount e), .fill .msg 0 bytes, .regWrite 5 n] ++ decodeSequence) s =
      .next (decryptNext Config.reference (extractNext Config.reference (handedOver e bytes n))) := by
  have hembed : (embedNext e).idle := idle_of_exec_next (exec_embed_eq hN)
  obtain ⟨hhanded, hrun⟩ := runActions_reload_fill n hembed hN hbytes
  have hextract := exec_extract_eq ((pixelCount_handedOver e bytes n).trans_le hN)
  rw [List.append_assoc, runActions_append_of_next (runActions_encode hidle hx hst hN),
    runActions_append_of_next hrun]
  exact runActions_decode hhanded hextract

/-- Settles O55: `EXTRACT` brings back the payload `ENCRYPT` made, the password is still there, and `OPEN_SEAL` opens
the record. -/
theorem encodeThenDecodeReturnsTheMessage : Obligations.EncodeThenDecodeReturnsTheMessage := by
  intro s n junk hidle hN R hfit hmax hdraw hjunk
  have hp : encryptPremise Config.reference s = none := encryptPremise_reference fun hpwd => by
    rw [show R = _ from if_neg hpwd] at hmax
    exact hmax.trans (by decide)
  have hx : exec .encrypt s = .next (encryptNext Config.reference s) := exec_of_premise hp
  have hst := encryptNext_status_eq_success hdraw
  have hL : (encryptNext Config.reference s).paylen.toNat = R :=
    toNat_paylen_of_encrypt (c := Config.reference) (by rwa [execWith_reference]) hst
  have hsize : pixelCount (encryptNext Config.reference s) = pixelCount s := (writesOnly_encryptNext hp).pixelCount_eq
  rw [← hsize, ← hL] at hfit
  rw [← hsize] at hN ⊢
  refine ⟨_, runActions_encode_decode n hidle hx hst hN hjunk, ?_⟩
  rw [decryptNext_of_encrypted hp hdraw (payload_extractNext_handedOver hfit (hL ▸ hmax))]
  · exact deliverMessage_message s _
  · calc password (extractNext Config.reference (handedOver (encryptNext Config.reference s) junk n))
      _ = password (handedOver (encryptNext Config.reference s) junk n) :=
        (writesOnly_extractNext _ _).password_eq (by decide)
      _ = password (encryptNext Config.reference s) := password_handedOver _ junk n
      _ = password s := password_encryptNext hp

end Sys2Proof.Machine
end

section
/-! PROOFS, family 60_exceptions: the illegal word, the values of `STATUS` a command ends with, and the state each
raise leaves (R220 to R229). -/

namespace Sys2Proof.Machine

variable {c : Params} {s : State}

/-! ## The illegal word (R93, R225) -/

/-- A word that is no command's, written to `CMD` of an idle block, raises `ILLEGAL_CMD`. -/
theorem hostAct_regWrite_zero_of_illegal {w : Word} (hidle : s.idle) (hw : ∀ i, w ≠ encode i) :
    hostAct (.regWrite 0 w) s = .next (s.setStatus 0x042) := by
  have hissue : hostAct (.regWrite 0 w) s = issue exec w s := by
    rw [hostAct, hostActWith, regWrite, if_neg (ne_true_of_eq_false hidle), if_pos rfl]
  rw [hissue, issue]
  cases hd : decode w with
  | ok i => exact absurd (decode_eq_ok_iff.1 hd) (hw i)
  | error r => exact congrArg Host.Outcome.next (illegalCommand_eq s)

/-- Every command's word is one of the four of R92. -/
theorem encode_mem (i : Instr) : encode i ∈ ([0x00000001, 0x00000002, 0x00000003, 0x00000004] : List Word) := by
  cases i <;> decide

/-- Settles O5: the word is no command's, and `IllegalCommand` writes `STATUS` alone. -/
theorem illegalWordChangesStatusOnly : Obligations.IllegalWordChangesStatusOnly := by
  intro s w hidle hw
  have hillegal : ∀ i, w ≠ encode i := by
    rintro i rfl
    exact hw (encode_mem i)
  exact hostAct_regWrite_zero_of_illegal hidle hillegal

/-! ## The values of `STATUS` (R29, R220) -/

/-- Settles O46: the value each command's next state holds. -/
theorem resultCodesOfEachCommand : Obligations.ResultCodesOfEachCommand := by
  intro i s t hx
  obtain ⟨-, rfl⟩ := exec_next hx
  cases i with
  | embed => exact embedNext_status s
  | extract => exact List.mem_singleton.2 (extractNext_status Config.reference s)
  | encrypt => exact encryptNext_status Config.reference s
  | decrypt => exact decryptNext_status Config.reference s

/-- The status of a success holds the code `NONE` (R29, R220). -/
theorem err_of_status_success (h : s.status = 0x002) : s.err = 0 := by
  rw [State.err, h]
  rfl

/-- `EXTRACT` has no error (R226). -/
theorem extractNext_err (c : Params) (s : State) : (extractNext c s).err = 0 :=
  err_of_status_success (extractNext_status c s)

/-! ## When `DECRYPT` raises (R223, R228) -/

/-- `DECRYPT` raises with a password alone, on a record shorter than a nonce or one the cipher does not open; which of
the two values it raises is decided by the length. -/
theorem decryptResult_eq_error_iff {pwd record : List Byte} {v : Word} :
    decryptResult c pwd record = .error v ↔
      (pwd ≠ [] ∧ (record.length < c.nonceSize ∨ openRecord c pwd record = none)) ∧
      v = if record.length < c.nonceSize then 0x132 else 0x032 := by
  by_cases hpwd : pwd = []
  · simp [hpwd, decryptResult_nil]
  · by_cases hshort : record.length < c.nonceSize
    · simp [decryptResult_of_short hpwd hshort, hpwd, hshort, eq_comm]
    · rw [decryptResult_of_long hpwd (Nat.not_lt.1 hshort)]
      cases openRecord c pwd record <;> simp [hpwd, hshort, eq_comm]

/-- The code of `DECRYPT` is `DECRYPTION` exactly when it raises (R220). -/
theorem decryptNext_err_eq_three_iff :
    (decryptNext c s).err = 3 ↔ ∃ v, decryptResult c (password s) (payload s) = .error v := by
  cases hr : decryptResult c (password s) (payload s) with
  | error v =>
    obtain ⟨-, rfl⟩ := decryptResult_eq_error_iff.1 hr
    rw [decryptNext_of_error hr, err_setStatus]
    refine iff_of_true ?_ ⟨_, rfl⟩
    split <;> rfl
  | ok p =>
    rw [decryptNext_of_ok hr, err_of_status_success (deliverMessage_status p s)]
    simp

/-- Settles O41: the raise is decided by password, length and cipher, its value by the length alone, and it changes
`STATUS` alone. -/
theorem decryptionErrorTellsOnlyTheLength : Obligations.DecryptionErrorTellsOnlyTheLength := by
  intro s t hx
  obtain ⟨-, rfl⟩ := exec_next hx
  rw [nextState, decryptNext_err_eq_three_iff]
  refine ⟨?_, fun ⟨v, hr⟩ => ?_⟩
  · simp only [decryptResult_eq_error_iff, exists_and_left, exists_eq, and_true, length_payload, Ne, password_eq_nil]
    exact Iff.rfl
  · obtain ⟨-, hv⟩ := decryptResult_eq_error_iff.1 hr
    rw [decryptNext_of_error hr, hv, length_payload]
    rfl

/-! ## The state a raise leaves (R224, R229) -/

theorem embedNext_of_err_ne_zero (h : (embedNext s).err ≠ 0) : embedNext s = (s.setCur 0).setStatus 0x012 :=
  embedNext_of_not_fits (mt embedNext_status_eq_success.2 (mt err_of_status_success h))

/-- `ENCRYPT` raises only after its request to the entropy port. -/
theorem encryptNext_of_err_ne_zero (h : (encryptNext c s).err ≠ 0) :
    encryptNext c s = (rngConsume s).setStatus 0x022 := by
  obtain ⟨hr, hnext⟩ | ⟨record, -, -, hnext⟩ := encryptNext_cases c s
  · obtain ⟨hpwd, -⟩ := encryptResult_eq_none.1 hr
    rw [hnext, afterRequest_of_pwdlen_ne_zero (mt password_eq_nil.2 hpwd)]
  · exact absurd (err_of_status_success (hnext ▸ rfl)) h

theorem decryptNext_of_err_ne_zero (h : (decryptNext c s).err ≠ 0) : ∃ v, decryptNext c s = s.setStatus v := by
  obtain ⟨v, -, -, hnext⟩ | ⟨p, -, -, hnext⟩ := decryptNext_cases c s
  · exact ⟨v, hnext⟩
  · exact absurd (err_of_status_success (hnext ▸ deliverMessage_status p s)) h

/-- Settles O47: a raise writes `STATUS`, after `CUR <- 0` in `EMBED` and after the request to the entropy port in
`ENCRYPT`; `EXTRACT` never raises. -/
theorem noPartialResults : Obligations.NoPartialResults := by
  intro i s t hx herr
  obtain ⟨-, rfl⟩ := exec_next hx
  cases i with
  | embed =>
    rw [nextState, embedNext_of_err_ne_zero herr]
    exact ⟨fun σ a => by simp, rfl, rfl, rfl, rfl⟩
  | extract => exact absurd (extractNext_err Config.reference s) herr
  | encrypt =>
    rw [nextState, encryptNext_of_err_ne_zero herr]
    exact ⟨fun σ a => by simp, rfl, rfl, rfl, rfl⟩
  | decrypt =>
    obtain ⟨v, hnext⟩ := decryptNext_of_err_ne_zero herr
    rw [nextState, hnext]
    exact ⟨fun σ a => by simp, rfl, rfl, rfl, rfl⟩

/-! ## What is not an error (R226) -/

/-- Settles O48: `EXTRACT` has no error, without a password `DECRYPT` delivers the payload as it is, and `EMBED` asks
only whether the frame fits. -/
theorem whatIsNotAnError : Obligations.WhatIsNotAnError := by
  refine ⟨fun s t hx => ?_, fun s t hpwd hx => ?_, fun s hN _ hlimit hroom => ?_⟩
  · obtain ⟨-, rfl⟩ := exec_next hx
    exact extractNext_err Config.reference s
  · obtain ⟨-, rfl⟩ := exec_next hx
    have hr : decryptResult Config.reference (password s) (payload s) = .ok (payload s) := by
      rw [password_eq_nil.2 hpwd, decryptResult_nil]
    rw [nextState, decryptNext_of_ok hr]
    exact err_of_status_success (deliverMessage_status (payload s) s)
  · have hf : fits s.paylen.toNat (pixelCount s) = true := (fits_iff _ _).2 ⟨hlimit, hroom⟩
    exact ⟨_, exec_embed_eq hN, err_of_status_success (embedNext_status_eq_success.2 hf)⟩

end Sys2Proof.Machine
end

section
/-! PROOFS, family 70_reset_and_hazards: when a command is refused (R272), the reset event (R260, R261), and every
command straight after it (R262). -/

namespace Sys2Proof.Machine

/-! ## A command is refused exactly when its premise fails (R272) -/

section
variable (c : Params) (s : State)

theorem execWith_refused_iff (i : Instr) : (∃ r, execWith c i s = .refused r) ↔ premise c s i ≠ none := by
  rw [execWith_eq]
  cases premise c s i <;> simp

theorem execWith_embed_refused_iff : (∃ r, execWith c .embed s = .refused r) ↔
    pixelCount s > c.maxPixels ∨ s.paylen.toNat > c.payCap := by
  rw [execWith_refused_iff, premise, Ne, embedPremise_eq_none, not_and_or, not_le, not_le]

theorem execWith_extract_refused_iff : (∃ r, execWith c .extract s = .refused r) ↔ pixelCount s > c.maxPixels := by
  rw [execWith_refused_iff, premise, Ne, extractPremise_eq_none, not_le]

theorem execWith_encrypt_refused_iff : (∃ r, execWith c .encrypt s = .refused r) ↔
    s.msglen.toNat > c.msgCap ∨ s.pwdlen.toNat > c.pwdCap ∨ encryptedLen c s > c.payCap := by
  rw [execWith_refused_iff, premise, Ne, encryptPremise_eq_none, not_and_or, not_and_or, not_le, not_le, not_le]

theorem execWith_decrypt_refused_iff : (∃ r, execWith c .decrypt s = .refused r) ↔
    s.paylen.toNat > c.payCap ∨ s.pwdlen.toNat > c.pwdCap ∨ s.paylen.toNat > c.msgCap := by
  rw [execWith_refused_iff, premise, Ne, decryptPremise_eq_none, not_and_or, not_and_or, not_le, not_le, not_le]

/-- The length of what `ENCRYPT` delivers, by the length of the password (R138). -/
theorem encryptedLen_eq_of_pwdlen_pos : encryptedLen c s =
    if s.pwdlen.toNat > 0 then c.nonceSize + s.msglen.toNat + c.tagSize else s.msglen.toNat := by
  have hpos : s.pwdlen.toNat > 0 ↔ ¬ s.pwdlen = 0 := by
    rw [gt_iff_lt, Nat.pos_iff_ne_zero, Ne, ← BitVec.toNat_inj]
    rfl
  simp only [encryptedLen_eq, hpos, ite_not]

end

/-- Settles O53: a command is refused when its launch premise is not `none`. Both parts are one statement, for `exec`
is the commands of the reference configuration. -/
theorem launchPremisesRefuse : Obligations.LaunchPremisesRefuse := by
  refine (and_iff_right_of_imp fun configured s => ?_).2 fun c s =>
    ⟨execWith_embed_refused_iff c s, execWith_extract_refused_iff c s, ?_, execWith_decrypt_refused_iff c s⟩
  · rw [← execWith_reference]
    exact configured Config.reference s
  · rw [← encryptedLen_eq_of_pwdlen_pos]
    exact execWith_encrypt_refused_iff c s

/-! ## The reset event (R260, R261) -/

/-- Every register reads 0 after the reset event (R46, R260). -/
theorem regValue_resetEvent (s : State) (n : Nat) : regValue (resetEvent s) n = 0 := by
  unfold regValue
  split
  case h_1 => exact BitVec.zero_and
  all_goals rfl

/-- No store byte outlives the reset event: each is the free value of the new reset period (R260; log 3). -/
theorem memRead_resetEvent (s : State) (σ : Store) (a : Nat) :
    memRead (resetEvent s) σ a = Config.unwrittenByte (s.resets + 1) σ a := by
  cases σ <;> rfl

theorem sameEntropy_resetEvent (s : State) : SameEntropy s (resetEvent s) := ⟨rfl, rfl⟩

/-- Settles O16: the step is the reset event, which asks nothing of the state it ends. -/
theorem resetEventFromEveryState : Obligations.ResetEventFromEveryState := by
  intro s rest hscript
  exact ⟨resetEvent { s with script := rest }, step_of_script_cons s hscript, regValue_resetEvent _, rfl,
    memRead_resetEvent _, sameEntropy_resetEvent _, rfl⟩

/-! ## Every command straight after reset (R262) -/

section
variable {s : State}

/-! A register that holds 0 is left as it is by a write of 0. -/

theorem setCur_zero (hcur : s.cur = 0) : s.setCur 0 = s :=
  setCur_of_toNat_eq (congrArg BitVec.toNat hcur)

theorem setPaylen_zero (hpaylen : s.paylen = 0) : s.setPaylen 0 = s := by
  change { s with paylen := 0 } = s
  rw [← hpaylen]

theorem setMsglen_zero (hmsglen : s.msglen = 0) : s.setMsglen 0 = s := by
  change { s with msglen := 0 } = s
  rw [← hmsglen]

theorem pixelCount_of_width_zero (hwidth : s.width = 0) : pixelCount s = 0 := by
  simp [pixelCount, hwidth]

theorem payload_of_paylen_zero (hpaylen : s.paylen = 0) : payload s = [] := by
  simp [← List.length_eq_zero_iff, hpaylen]

theorem message_of_msglen_zero (hmsglen : s.msglen = 0) : message s = [] := by
  simp [← List.length_eq_zero_iff, hmsglen]

/-- Delivering nothing where the length is 0 is only to finish (R136). -/
theorem deliverPayload_nil (hpaylen : s.paylen = 0) : deliverPayload [] s = s.setStatus 0x002 :=
  congrArg finish (setPaylen_zero hpaylen)

/-- Delivering nothing where the length is 0 is only to finish (R137). -/
theorem deliverMessage_nil (hmsglen : s.msglen = 0) : deliverMessage [] s = s.setStatus 0x002 :=
  congrArg finish (setMsglen_zero hmsglen)

/-- No frame fits an image of no pixels, for the header alone takes 64 slots. -/
theorem exec_embed_of_zero (hwidth : s.width = 0) (hcur : s.cur = 0) :
    exec .embed s = .next (s.setStatus 0x012) := by
  have hN := pixelCount_of_width_zero hwidth
  have hfit : ¬ fits s.paylen.toNat (pixelCount s) = true := by
    rw [fits_iff]
    omega
  rw [exec_embed_eq (by simp [hN]), embedNext_of_not_fits hfit, setCur_zero hcur]

/-- An image of no pixels has no header to read. -/
theorem exec_extract_of_zero (hwidth : s.width = 0) (hpaylen : s.paylen = 0) (hcur : s.cur = 0) :
    exec .extract s = .next (s.setStatus 0x002) := by
  have hN := pixelCount_of_width_zero hwidth
  rw [exec_extract_eq (by simp [hN]), extractNext_of_small (by omega), setCur_zero hcur, setPaylen_zero hpaylen]

/-- Without a password the empty message is delivered as it is, and no draw is made. -/
theorem exec_encrypt_of_zero (hpaylen : s.paylen = 0) (hmsglen : s.msglen = 0) (hpwdlen : s.pwdlen = 0) :
    exec .encrypt s = .next (s.setStatus 0x002) := by
  have hresult : encryptResult Config.reference (password s) (message s) (rngNextAnswer _ s) = some [] := by
    rw [password_eq_nil.2 hpwdlen, message_of_msglen_zero hmsglen, encryptResult_nil]
  rw [exec_encrypt_eq (absurd hpwdlen), encryptNext_of_some hresult, afterRequest_of_pwdlen_zero _ hpwdlen,
    deliverPayload_nil hpaylen]

/-- Without a password the empty payload is delivered as it is. -/
theorem exec_decrypt_of_zero (hpaylen : s.paylen = 0) (hmsglen : s.msglen = 0) (hpwdlen : s.pwdlen = 0) :
    exec .decrypt s = .next (s.setStatus 0x002) := by
  have hresult : decryptResult Config.reference (password s) (payload s) = .ok [] := by
    rw [password_eq_nil.2 hpwdlen, payload_of_paylen_zero hpaylen, decryptResult_nil]
  rw [exec_decrypt_eq, decryptNext_of_ok hresult, deliverMessage_nil hmsglen]

end

/-- Settles O17: the image has no room for a header, and without a password the empty text is delivered as it is. -/
theorem commandsStraightAfterReset : Obligations.CommandsStraightAfterReset := by
  intro s hwidth _ hpaylen hmsglen hpwdlen hcur
  exact ⟨exec_embed_of_zero hwidth hcur, exec_extract_of_zero hwidth hpaylen hcur,
    exec_encrypt_of_zero hpaylen hmsglen hpwdlen, exec_decrypt_of_zero hpaylen hmsglen hpwdlen⟩

end Sys2Proof.Machine
end
